-- ==== Sys2Proof/Word.lean ====
section
/-! DEFINITION. The machine's integers: `Word`, the signed 64-bit range, and `Addr`, the cell addresses
(spec/00_scope.md R15, R16). Neither is a bit vector: the spec gives them no bits, only a range (R16 "There is no
bit-level numbering"), and all arithmetic is exact on integers, narrowed by an explicit check. -/

namespace Sys2Proof

/-- R16: the integers of a `Word`, `-2^63` to `2^63 - 1`. -/
abbrev InWord (n : Int) : Prop := -9223372036854775808 ≤ n ∧ n ≤ 9223372036854775807

/-- R16: the integers of an `Addr`, `0` to `2^63 - 1`. -/
abbrev InAddr (n : Int) : Prop := 0 ≤ n ∧ n ≤ 9223372036854775807

/-- R16: a word, the content of a cell, an operand value, the relative base, the pending input, a coordinate. -/
@[ext] structure Word where
  val : Int
  inWord : InWord val
  deriving DecidableEq, Repr

/-- R16: the address of a cell. Every `Addr` exists (R33). -/
@[ext] structure Addr where
  val : Nat
  inAddr : val ≤ 9223372036854775807
  deriving DecidableEq, Repr

/-- The word `n`, its range decided where it is written down. -/
def Word.lit (n : Int) (h : InWord n := by decide) : Word := ⟨n, h⟩

/-- The address `n`, its range decided where it is written down. -/
def Addr.lit (n : Nat) (h : n ≤ 9223372036854775807 := by decide) : Addr := ⟨n, h⟩

def Word.zero : Word := ⟨0, by decide⟩

def Word.one : Word := ⟨1, by decide⟩

end Sys2Proof
end

