-- ==== Sys2Proof/Config.lean ====
section
/-! DEFINITION. The implementation parameters of spec/00_scope.md R15, each at the value the spec takes. The spec leaves no
value free (spec/93_implementation_defined.md section 2), so there is no opaque constant here. -/

namespace Sys2Proof.Config

/-- R15 `WORD_BITS` (D3). `InWord` is the signed two's-complement range of this width: `Laws.inWord_iff_wordBits`. -/
def wordBits : Nat := 64

/-- R23, R251: the reset instruction pointer (D6). -/
def resetIp : Addr := ⟨0, by decide⟩

/-- R11, R15: the default of the reset-time input `init_input` (D17). -/
def defaultInitInput : Word := Word.zero

/-- R15, R29: the start coordinate (D7). -/
def startX : Word := Word.zero

/-- R15, R29: the start coordinate (D7). -/
def startY : Word := Word.zero

/-- R11: the greatest length of a reset-time image, `2^63`. -/
def maxImageLength : Nat := 9223372036854775808

end Sys2Proof.Config
end

