-- ==== Sys2Proof/Syntax.lean ====
section
/-! DEFINITION. The instructions (spec/30_encoding.md, spec/opcode_table.json): one constructor of `Instr` per row of the table,
carrying the addressing mode of each operand. The operand cells themselves are no part of a decoded instruction: R85's decode
gives the operation and its modes, and each operand cell is read when its operand is resolved (R105, R77, R78). `CodeLine` is an
instruction together with its raw operand cells, the form a program image is assembled from (R70, R88). -/

namespace Sys2Proof

/-- R75: how an operand is interpreted. -/
inductive Mode where
  | position
  | immediate
  | relative
  deriving DecidableEq, Repr

/-- R2, R76: the ten operations, each with the modes of its operands in declared order. -/
inductive Instr where
  /-- opcode 1, R120: src1, src2, dest -/
  | add (m1 m2 m3 : Mode)
  /-- opcode 2, R121: src1, src2, dest -/
  | multiply (m1 m2 m3 : Mode)
  /-- opcode 3, R140: dest -/
  | input (m1 : Mode)
  /-- opcode 4, R141: src1 -/
  | output (m1 : Mode)
  /-- opcode 5, R160: cond, target -/
  | jumpIfTrue (m1 m2 : Mode)
  /-- opcode 6, R161: cond, target -/
  | jumpIfFalse (m1 m2 : Mode)
  /-- opcode 7, R122: src1, src2, dest -/
  | lessThan (m1 m2 m3 : Mode)
  /-- opcode 8, R123: src1, src2, dest -/
  | equals (m1 m2 m3 : Mode)
  /-- opcode 9, R180: src1 -/
  | adjustRelativeBase (m1 : Mode)
  /-- opcode 99, R162 -/
  | halt
  deriving DecidableEq, Repr

/-- R76: the operand count `n`, from the opcode alone. -/
def Instr.operandCount : Instr → Nat
  | .add _ _ _ => 3
  | .multiply _ _ _ => 3
  | .input _ => 1
  | .output _ => 1
  | .jumpIfTrue _ _ => 2
  | .jumpIfFalse _ _ => 2
  | .lessThan _ _ _ => 3
  | .equals _ _ _ => 3
  | .adjustRelativeBase _ => 1
  | .halt => 0

/-- R70, R76: the length in cells, the opcode cell and the operand cells. -/
def Instr.length (i : Instr) : Nat := 1 + i.operandCount

/-- An instruction with the raw values of its operand cells, `raws[k - 1]` the cell `ip + k` (R70, R88). -/
structure CodeLine where
  instr : Instr
  raws : List Word
  deriving DecidableEq, Repr

/-- R220: the fatal conditions, each with the value `fault_info` records for it (R227). -/
inductive Condition where
  /-- R221: a computed index that is not an `Addr` -/
  | invalidAddress (index : Int)
  /-- R222: the instruction word, negative or with an undefined opcode -/
  | unknownOpcode (word : Word)
  /-- R223: the instruction word, with a mode digit in 3 to 9 -/
  | malformedModeDigit (word : Word)
  /-- R224: an exact result that is not a `Word` -/
  | arithmeticOverflow (result : Int)
  /-- R225: an exact coordinate that is not a `Word` -/
  | coordinateOverflow (coordinate : Int)
  deriving DecidableEq, Repr

end Sys2Proof
end

