-- ==== Sys2Proof/WellFormed.lean ====
section
/-! DEFINITION. What assembled code must meet. Every term of `Instr` is well formed by its type: its modes are the three of R75
and their number is fixed by the constructor (R76). Two checks remain, on a line of code and on an image. -/

namespace Sys2Proof

/-- R70, R76: a line has exactly the operand cells its opcode calls for. -/
abbrev CodeLine.WellFormed (l : CodeLine) : Prop := l.raws.length = l.instr.operandCount

/-- R11: an image has at most `2^63` words. -/
abbrev ImageWellFormed (image : List Word) : Prop := image.length ≤ Config.maxImageLength

end Sys2Proof
end

