-- ==== Sys2Proof/Decode.lean ====
section
/-! DEFINITION. The decoder of spec/30_encoding.md section 3 and, after it, the encoder and the assembler form of section 5. The
fields of an instruction word are decimal digits (R71), so both work on `Nat` with `/` and `%`. -/

namespace Sys2Proof

/-- R16 `digit_k(w)`: decimal digit `k` of `n`, digit 0 the least significant. -/
def digitAt (k n : Nat) : Nat := n / 10 ^ k % 10

/-- R75: the mode of a valid mode digit; a digit in 3 to 9 is refused. -/
def Mode.ofDigit? : Nat → Option Mode
  | 0 => some .position
  | 1 => some .immediate
  | 2 => some .relative
  | _ => none

/-- R74: `mode_k = digit_{k+1}(w)`. A malformed digit reads as Position here, and `decode` refuses its word first. -/
def modeOf (k n : Nat) : Mode := (Mode.ofDigit? (digitAt (k + 1) n)).getD .position

/-- R83: the whole mode-digit string `d = w div 100` holds digits 0 to 2 only. The loop of R85, on fuel: a string longer than
the fuel is not accepted. -/
def modeDigitsOk : Nat → Nat → Bool
  | 0, d => d == 0
  | fuel + 1, d => d == 0 || (decide (d % 10 ≤ 2) && modeDigitsOk fuel (d / 10))

/-- A `Word` has at most 19 decimal digits, so its mode-digit string has at most 17. -/
def modeDigitFuel : Nat := 17

/-- R72, R86: the operation of an opcode, given the three mode digits of R74. Every other opcode is illegal. -/
def instrOfOpcode (op : Nat) (m1 m2 m3 : Mode) : Option Instr :=
  match op with
  | 1 => some (.add m1 m2 m3)
  | 2 => some (.multiply m1 m2 m3)
  | 3 => some (.input m1)
  | 4 => some (.output m1)
  | 5 => some (.jumpIfTrue m1 m2)
  | 6 => some (.jumpIfFalse m1 m2)
  | 7 => some (.lessThan m1 m2 m3)
  | 8 => some (.equals m1 m2 m3)
  | 9 => some (.adjustRelativeBase m1)
  | 99 => some .halt
  | _ => none

/-- R85: decode, total on every word. A negative word and an undefined opcode raise `UnknownOpcode` (R82, R222); only then is the
mode-digit string checked, over all its digits (R83, R223). Mode digits beyond the operand count are dropped (R84). -/
def decode (w : Word) : Except Condition Instr :=
  if w.val < 0 then .error (.unknownOpcode w)
  else
    let n := w.val.toNat
    match instrOfOpcode (n % 100) (modeOf 1 n) (modeOf 2 n) (modeOf 3 n) with
    | none => .error (.unknownOpcode w)
    | some i => if modeDigitsOk modeDigitFuel (n / 100) then .ok i else .error (.malformedModeDigit w)

/-! ## The encoder -/

/-- R75: the decimal digit that selects a mode. -/
def Mode.digit : Mode → Nat
  | .position => 0
  | .immediate => 1
  | .relative => 2

/-- R2, R86: the opcode of an operation. -/
def Instr.opcode : Instr → Nat
  | .add _ _ _ => 1
  | .multiply _ _ _ => 2
  | .input _ => 3
  | .output _ => 4
  | .jumpIfTrue _ _ => 5
  | .jumpIfFalse _ _ => 6
  | .lessThan _ _ _ => 7
  | .equals _ _ _ => 8
  | .adjustRelativeBase _ => 9
  | .halt => 99

/-- The modes of an instruction's operands, operand 1 first. -/
def Instr.modes : Instr → List Mode
  | .add m1 m2 m3 => [m1, m2, m3]
  | .multiply m1 m2 m3 => [m1, m2, m3]
  | .input m1 => [m1]
  | .output m1 => [m1]
  | .jumpIfTrue m1 m2 => [m1, m2]
  | .jumpIfFalse m1 m2 => [m1, m2]
  | .lessThan m1 m2 m3 => [m1, m2, m3]
  | .equals m1 m2 m3 => [m1, m2, m3]
  | .adjustRelativeBase m1 => [m1]
  | .halt => []

/-- R71, R88: `opcode + 100*mode_1 + 1000*mode_2 + 10000*mode_3`, the digits of absent operands 0. -/
def encodeNat : Instr → Nat
  | .add m1 m2 m3 => 1 + 100 * m1.digit + 1000 * m2.digit + 10000 * m3.digit
  | .multiply m1 m2 m3 => 2 + 100 * m1.digit + 1000 * m2.digit + 10000 * m3.digit
  | .input m1 => 3 + 100 * m1.digit
  | .output m1 => 4 + 100 * m1.digit
  | .jumpIfTrue m1 m2 => 5 + 100 * m1.digit + 1000 * m2.digit
  | .jumpIfFalse m1 m2 => 6 + 100 * m1.digit + 1000 * m2.digit
  | .lessThan m1 m2 m3 => 7 + 100 * m1.digit + 1000 * m2.digit + 10000 * m3.digit
  | .equals m1 m2 m3 => 8 + 100 * m1.digit + 1000 * m2.digit + 10000 * m3.digit
  | .adjustRelativeBase m1 => 9 + 100 * m1.digit
  | .halt => 99

theorem Mode.digit_le (m : Mode) : m.digit ≤ 2 := by cases m <;> decide

theorem encodeNat_le (i : Instr) : encodeNat i ≤ 22299 := by
  cases i with
  | add m1 m2 m3 | multiply m1 m2 m3 | lessThan m1 m2 m3 | equals m1 m2 m3 =>
    have := m1.digit_le; have := m2.digit_le; have := m3.digit_le; simp only [encodeNat]; omega
  | jumpIfTrue m1 m2 | jumpIfFalse m1 m2 =>
    have := m1.digit_le; have := m2.digit_le; simp only [encodeNat]; omega
  | input m1 | output m1 | adjustRelativeBase m1 => have := m1.digit_le; simp only [encodeNat]; omega
  | halt => decide

/-- The opcode cell of an instruction. -/
def encode (i : Instr) : Word :=
  ⟨(encodeNat i : Int), by have := encodeNat_le i; constructor <;> omega⟩

/-- R70, R88: the cells of a line of code, the opcode cell and then the raw operand cells. -/
def CodeLine.cells (l : CodeLine) : List Word := encode l.instr :: l.raws

/-- R88: a program image is the cells of its lines, one after the other. -/
def assemble (ls : List CodeLine) : List Word := ls.flatMap CodeLine.cells

/-- Why a run of cells is no line of code: the opcode cell does not decode, or the cells end before its operands do. -/
inductive LineError where
  | noCells
  | condition (c : Condition)
  | missingOperands (needed found : Nat)
  deriving DecidableEq, Repr

/-- R70, R76: one line of code from the front of a run of cells, and the cells after it. -/
def decodeLine : List Word → Except LineError (CodeLine × List Word)
  | [] => .error .noCells
  | w :: rest =>
    match decode w with
    | .error c => .error (.condition c)
    | .ok i =>
      if i.operandCount ≤ rest.length then .ok (⟨i, rest.take i.operandCount⟩, rest.drop i.operandCount)
      else .error (.missingOperands i.operandCount rest.length)

/-! ## The assembler form (R88, D22), a printing of code, no part of the machine -/

/-- R88: the mnemonics. -/
def Instr.mnemonic : Instr → String
  | .add _ _ _ => "ADD"
  | .multiply _ _ _ => "MUL"
  | .input _ => "IN"
  | .output _ => "OUT"
  | .jumpIfTrue _ _ => "JT"
  | .jumpIfFalse _ _ => "JF"
  | .lessThan _ _ _ => "LT"
  | .equals _ _ _ => "EQ"
  | .adjustRelativeBase _ => "ARB"
  | .halt => "HALT"

/-- R88: `[n]`, `#n`, `[rb+n]` or `[rb-n]`. -/
def operandText (m : Mode) (raw : Word) : String :=
  match m with
  | .position => "[" ++ toString raw.val ++ "]"
  | .immediate => "#" ++ toString raw.val
  | .relative => if 0 ≤ raw.val then "[rb+" ++ toString raw.val ++ "]" else "[rb" ++ toString raw.val ++ "]"

/-- R88: a line as text, its operands in order and separated by commas. -/
def CodeLine.text (l : CodeLine) : String :=
  match List.zipWith operandText l.instr.modes l.raws with
  | [] => l.instr.mnemonic
  | ops => l.instr.mnemonic ++ " " ++ ", ".intercalate ops

/-! ## Table words as bits

The spec's words have no bits (R16, R54). The host numbers the bits of an instruction word by word; here a word's 64 bits are its
two's complement (R15), the opcode cell the lowest (log entry 6). -/

/-- The word whose 64-bit two's complement is `b mod 2^64`. -/
def wordOfBits (b : Nat) : Word :=
  let u := b % 18446744073709551616
  if h : u < 9223372036854775808 then ⟨(u : Int), by constructor <;> omega⟩
  else ⟨(u : Int) - 18446744073709551616, by
    have : u < 18446744073709551616 := Nat.mod_lt _ (by decide)
    constructor <;> omega⟩

/-- The longest instruction, in cells (R76). -/
def longestInstr : Nat := 4

/-- The first `count` cells of an instruction's bits. -/
def cellsOfBits : Nat → Nat → List Word
  | 0, _ => []
  | count + 1, b => wordOfBits b :: cellsOfBits count (b / 18446744073709551616)

/-- The cells of the instruction whose bits are `w` below bit `nbits` and 0 from there on. -/
def tableCells (nbits w : Nat) : List Word := cellsOfBits longestInstr (w % 2 ^ nbits)

/-- The instruction the decoder reads from those cells. -/
def decodeTableWord (nbits w : Nat) : Option Instr :=
  match decodeLine (tableCells nbits w) with
  | .ok (l, _) => some l.instr
  | .error _ => none

end Sys2Proof
end

