-- ==== Sys2Proof/Machine/State.lean ====
section
/-! DEFINITION. The architectural state of spec/10_state.md, every piece of it, as plain data, and its reset value (R39). -/

namespace Sys2Proof.Machine

/-- R33, R50: the cells that hold something else than 0, by address. The canonical form is `Memory.wf` (Ops.lean). -/
abbrev Memory := List (Nat × Word)

/-- R24: the run state. -/
inductive RunState where
  | running
  | halted
  | faulted
  deriving DecidableEq, Repr

/-- R24, R220: the cause recorded on entry to `Faulted`. -/
inductive Cause where
  | none
  | invalidAddress
  | unknownOpcode
  | malformedModeDigit
  | arithmeticOverflow
  | coordinateOverflow
  deriving DecidableEq, Repr

/-- R25: the Output Phase Flag. -/
inductive Phase where
  | paint
  | turn
  deriving DecidableEq, Repr

/-- R30: the agent's heading. -/
inductive Heading where
  | north
  | east
  | south
  | west
  deriving DecidableEq, Repr

/-- R29: a coordinate pair. -/
@[ext] structure Coord where
  x : Word
  y : Word
  deriving DecidableEq, Repr

/-- R31: the colours of the cells ever painted, by coordinate. The canonical form is `PaintMap.wf` (Ops.lean). -/
abbrev PaintMap := List (Coord × Word)

/-- R190: the state of the agent output state machine (R25, R29 to R32). -/
@[ext] structure Agent where
  phase : Phase
  pos : Coord
  heading : Heading
  paint : PaintMap
  pending : Word
  deriving DecidableEq, Repr

/-- The whole state of the block (R39 lists it). `paint_count` is computed (R34). -/
@[ext]
structure State where
  /-- R33 -/
  mem : Memory
  /-- R21 -/
  ip : Addr
  /-- R27 -/
  rb : Word
  /-- R24 -/
  runState : RunState
  /-- R24 -/
  cause : Cause
  /-- R24, R227: an exact integer -/
  faultInfo : Int
  /-- R25, R29 to R32 -/
  agent : Agent
  /-- R35: every word emitted, oldest first; diagnostic -/
  outlog : List Word
  deriving DecidableEq, Repr

/-- Why a step has no next state. A fatal condition of the spec is no `Fault`: it is a next state, `Faulted` (R226, log entry 3). -/
inductive Fault where
  /-- Raised by `step` alone, when a step is requested in `Halted` or `Faulted`, where none is enabled (R12, R101; log entry 4).
  Safe: the machine stops, where the block stays as it is. -/
  | notEnabled (r : RunState)
  deriving DecidableEq, Repr

/-- Why an instruction has no meaning in the model. -/
inductive Refusal where
  /-- Raised by a refused arm of `exec`, of which there is none now: every instruction has its meaning. Safe. -/
  | notModelled (mnemonic : String)
  deriving DecidableEq, Repr

/-- R39: the agent's reset value, for the default `init_input`. -/
def Agent.reset : Agent where
  phase := .paint
  pos := ⟨Config.startX, Config.startY⟩
  heading := .north
  paint := []
  pending := Config.defaultInitInput

/-- R39, R250: the machine right after reset with an empty image and the default `init_input`. The reset of any other image and
`init_input` is `State.resetWith` (Ops.lean; log entry 5). -/
def State.reset : State where
  mem := []
  ip := Config.resetIp
  rb := Word.zero
  runState := .running
  cause := .none
  faultInfo := 0
  agent := Agent.reset
  outlog := []

end Sys2Proof.Machine
end

