-- ==== Sys2Proof/Machine/Ops.lean ====
section
/-! DEFINITION. The shared operations: the range checks (R17), memory (spec/20_memory.md), the paint map (R31), reset (R250), the
entry into `Faulted` (R226), the commit of a step (R107), and the status outputs (R13). -/

namespace Sys2Proof.Machine

/-! ## Range checks (R17) -/

/-- `InWord` as a Bool, by the sign, so that a check of an open sum does not unfold into a subtraction of literals. -/
def inWord (n : Int) : Bool :=
  match n with
  | .ofNat m => decide (m ≤ 9223372036854775807)
  | .negSucc m => decide (m ≤ 9223372036854775807)

theorem inWord_iff {n : Int} : inWord n = true ↔ InWord n := by
  cases n <;> simp only [inWord, decide_eq_true_eq, InWord, Int.ofNat_eq_natCast, Int.negSucc_eq] <;> omega

/-- R17 `CheckAddr`: R53, R221. -/
def checkAddr (n : Int) : Except Condition Addr :=
  match n with
  | .ofNat m => if h : m ≤ 9223372036854775807 then .ok ⟨m, h⟩ else .error (.invalidAddress (.ofNat m))
  | .negSucc m => .error (.invalidAddress (.negSucc m))

/-- R17 `CheckWord`: R224. -/
def checkWord (n : Int) : Except Condition Word :=
  if h : inWord n = true then .ok ⟨n, inWord_iff.1 h⟩ else .error (.arithmeticOverflow n)

/-- The range check of a coordinate after a move: R199, R225. -/
def checkCoord (n : Int) : Except Condition Word :=
  if h : inWord n = true then .ok ⟨n, inWord_iff.1 h⟩ else .error (.coordinateOverflow n)

/-! ## Finite maps as lists -/

section Assoc
variable {κ β : Type} [DecidableEq κ]

/-- The value of key `k`. -/
def assocFind (k : κ) : List (κ × β) → Option β
  | [] => none
  | e :: rest => if e.1 = k then some e.2 else assocFind k rest

/-- Without key `k`. -/
def assocErase (k : κ) : List (κ × β) → List (κ × β)
  | [] => []
  | e :: rest => if e.1 = k then assocErase k rest else e :: assocErase k rest

/-- Key `k` put before the first greater key. -/
def assocInsert (lt : κ → κ → Bool) (k : κ) (v : β) : List (κ × β) → List (κ × β)
  | [] => [(k, v)]
  | e :: rest => if lt k e.1 then (k, v) :: e :: rest else e :: assocInsert lt k v rest

/-- Key `k` mapped to `v`, whatever it was mapped to before. -/
def assocPut (lt : κ → κ → Bool) (k : κ) (v : β) (m : List (κ × β)) : List (κ × β) :=
  assocInsert lt k v (assocErase k m)

end Assoc

/-! ## Memory (R50 to R53) -/

/-- R51: what a cell reads as that neither the image nor a write has set. -/
def Memory.unlisted : Word := Word.zero

/-- The order of the listed addresses. -/
def addrLt (a b : Nat) : Bool := decide (a < b)

/-- R51 `MemRead(a, 1)`. -/
def Memory.read (m : Memory) (a : Addr) : Word := (assocFind a.val m).getD Memory.unlisted

/-- R52 `MemWrite(a, 1, v)`. It always succeeds. -/
def Memory.write (m : Memory) (a : Addr) (v : Word) : Memory :=
  if v = Memory.unlisted then assocErase a.val m else assocPut addrLt a.val v m

/-- The canonical form: addresses strictly rising and all an `Addr`, no entry equal to what an unlisted cell reads as. -/
abbrev Memory.wf (m : Memory) : Prop :=
  m.Pairwise (fun e f => e.1 < f.1) ∧ ∀ e ∈ m, e.1 ≤ 9223372036854775807 ∧ e.2 ≠ Memory.unlisted

/-- The memory that holds `ws` from address `a` on and 0 elsewhere. -/
def Memory.ofCells : Nat → List Word → Memory
  | _, [] => []
  | a, w :: ws => if w = Memory.unlisted then Memory.ofCells (a + 1) ws else (a, w) :: Memory.ofCells (a + 1) ws

/-- R33, R250: memory at reset, the image from address 0 on. -/
def Memory.ofImage (image : List Word) : Memory := Memory.ofCells 0 image

/-- Consecutive cells written from address `a` on, as far as there are addresses. -/
def Memory.storeCells (m : Memory) : Nat → List Word → Memory
  | _, [] => m
  | a, w :: ws => if h : a ≤ 9223372036854775807 then Memory.storeCells (m.write ⟨a, h⟩ w) (a + 1) ws else m

/-! ## The paint map (R31) -/

/-- The order of the listed coordinates, by `x` and then by `y`. -/
def coordLt (p q : Coord) : Bool := decide (p.x.val < q.x.val ∨ (p.x.val = q.x.val ∧ p.y.val < q.y.val))

/-- R31, R196: the colour of a cell, 0 when it was never painted. -/
def PaintMap.colour (m : PaintMap) (p : Coord) : Word := (assocFind p m).getD Word.zero

/-- R192: a cell painted. A key already there keeps its place and takes the new value. -/
def PaintMap.put (m : PaintMap) (p : Coord) (v : Word) : PaintMap := assocPut coordLt p v m

/-- R31: the cells ever painted. -/
def PaintMap.keys (m : PaintMap) : List Coord := m.map Prod.fst

/-- The canonical form: coordinates strictly rising, so no key twice. -/
abbrev PaintMap.wf (m : PaintMap) : Prop := m.Pairwise (fun e f => coordLt e.1 f.1 = true)

/-! ## Reset (R250) -/

/-- R250 `reset(image, init_input)`. -/
def State.resetWith (image : List Word) (initInput : Word) : State :=
  { State.reset with mem := Memory.ofImage image, agent := { Agent.reset with pending := initInput } }

/-- R250: reset "may be applied in any state", and no state survives it. -/
def State.applyReset (_s : State) (image : List Word) (initInput : Word) : State := State.resetWith image initInput

/-! ## Fatal conditions (R220, R226) -/

/-- R220: the cause a condition records. -/
def Condition.cause : Condition → Cause
  | .invalidAddress _ => .invalidAddress
  | .unknownOpcode _ => .unknownOpcode
  | .malformedModeDigit _ => .malformedModeDigit
  | .arithmeticOverflow _ => .arithmeticOverflow
  | .coordinateOverflow _ => .coordinateOverflow

/-- R220, R227: the value `fault_info` records. -/
def Condition.info : Condition → Int
  | .invalidAddress n => n
  | .unknownOpcode w => w.val
  | .malformedModeDigit w => w.val
  | .arithmeticOverflow r => r
  | .coordinateOverflow n => n

/-- R226: the entry into `Faulted`. Nothing of the step is committed and `ip` keeps the address of the faulting instruction. There
is no return from it (R230). -/
def takeFatal (c : Condition) (s : State) : State :=
  { s with runState := .faulted, cause := Condition.cause c, faultInfo := Condition.info c }

/-- R107, R226: the end of a step that began in `s`: its effects all together, or the condition it raised and none of them. -/
def commit (s : State) (r : Except Condition State) : Host.Outcome State Fault Refusal :=
  match r with
  | .ok t => .next t
  | .error c => .next (takeFatal c s)

/-- R102, R103: fetch the word at `ip` and decode it. -/
def fetchDecode (s : State) : Except Condition Instr := decode (s.mem.read s.ip)

/-- R106: the checked next instruction pointer of an instruction of `len` cells that falls through. -/
def fallThrough (s : State) (len : Nat) : Except Condition Addr := checkAddr ((s.ip.val : Int) + (len : Int))

/-! ## Status outputs (R13) and codes (R24, R25, R30, R220) -/

def RunState.code : RunState → Nat
  | .running => 0
  | .halted => 1
  | .faulted => 2

def Cause.code : Cause → Nat
  | .none => 0
  | .invalidAddress => 1
  | .unknownOpcode => 2
  | .malformedModeDigit => 3
  | .arithmeticOverflow => 4
  | .coordinateOverflow => 5

def Phase.code : Phase → Nat
  | .paint => 0
  | .turn => 1

def Heading.code : Heading → Nat
  | .north => 0
  | .east => 1
  | .south => 2
  | .west => 3

/-- R34, R198: `paint_count = |keys(paint)|`. -/
def State.paintCount (s : State) : Nat := s.agent.paint.keys.dedup.length

/-- R13: the status outputs, readable at any time. -/
structure StatusOutputs where
  runState : Nat
  cause : Nat
  faultInfo : Int
  paintCount : Nat
  deriving DecidableEq, Repr

def State.statusOutputs (s : State) : StatusOutputs :=
  ⟨RunState.code s.runState, Cause.code s.cause, s.faultInfo, s.paintCount⟩

/-- R111: the result of a run that has ended, `paint_count` at `Halted` only. -/
def State.result (s : State) : Option Nat :=
  match s.runState with
  | .halted => some s.paintCount
  | .running => none
  | .faulted => none

end Sys2Proof.Machine
end

