-- ==== Sys2Proof/Machine/Flags.lean ====
section
/-! DEFINITION. Truth values. The block has no flags (R26): a comparison yields the word 1 or 0 (R122, R123), and a conditional jump
tests a word for zero (R160, R161). -/

namespace Sys2Proof.Machine

/-- R122, R123: the word a comparison writes. -/
def truthWord (b : Bool) : Word := if b then Word.one else Word.zero

/-- R122: `a < b`, signed. -/
def wordLt (a b : Word) : Bool := decide (a.val < b.val)

/-- R123: `a == b`. -/
def wordEq (a b : Word) : Bool := decide (a.val = b.val)

/-- R160, R161, R193: `w != 0`. -/
def wordNonzero (w : Word) : Bool := decide (w.val ≠ 0)

end Sys2Proof.Machine
end

