-- ==== Sys2Proof/Machine/Operands.lean ====
section
/-! DEFINITION. Operand resolution (spec/30_encoding.md section 2). Operand `k` stands in cell `ip + k` (R18); the checks are made in
the order of R228, the operand-cell address first. -/

namespace Sys2Proof.Machine

/-- The raw value of operand `k`: `MemRead(CheckAddr(ip + k), 1)` (R77, R78). -/
def rawOperand (s : State) (k : Nat) : Except Condition Word := do
  let a ← checkAddr ((s.ip.val : Int) + (k : Int))
  pure (s.mem.read a)

/-- R77 `src(k)`: the value of a source operand. Jump conditions and targets are source operands (R81). -/
def srcOperand (s : State) (k : Nat) (m : Mode) : Except Condition Word := do
  let raw ← rawOperand s k
  match m with
  | .position => do
    let a ← checkAddr raw.val
    pure (s.mem.read a)
  | .immediate => pure raw
  | .relative => do
    let a ← checkAddr (raw.val + s.rb.val)
    pure (s.mem.read a)

/-- R78 `dst(k)`: the write address of a destination operand, never dereferenced. An Immediate digit gives the same address as a
Position digit (R79). -/
def dstOperand (s : State) (k : Nat) (m : Mode) : Except Condition Addr := do
  let raw ← rawOperand s k
  match m with
  | .position => checkAddr raw.val
  | .immediate => checkAddr raw.val
  | .relative => checkAddr (raw.val + s.rb.val)

end Sys2Proof.Machine
end

