-- ==== Sys2Proof/Machine/Arith.lean ====
section
/-! DEFINITION. Add, Multiply, LessThan and Equals (spec/41_arith_compare.md). -/

namespace Sys2Proof.Machine

/-- The shape the four share: both sources, then the destination, then the result `f` computes from the two values (which may raise
`ArithmeticOverflow`), then the next ip (R228), and the one write (R107). -/
def binaryResult (f : Word → Word → Except Condition Word) (m1 m2 m3 : Mode) (s : State) : Except Condition State := do
  let a ← srcOperand s 1 m1
  let b ← srcOperand s 2 m2
  let d ← dstOperand s 3 m3
  let r ← f a b
  let next ← fallThrough s 4
  pure { s with mem := s.mem.write d r, ip := next }

/-- R120. -/
def addWords (a b : Word) : Except Condition Word := checkWord (a.val + b.val)

/-- R121. -/
def multiplyWords (a b : Word) : Except Condition Word := checkWord (a.val * b.val)

/-- R122. -/
def lessThanWords (a b : Word) : Except Condition Word := pure (truthWord (wordLt a b))

/-- R123. -/
def equalsWords (a b : Word) : Except Condition Word := pure (truthWord (wordEq a b))

/-- R120 Add. -/
def execAdd (m1 m2 m3 : Mode) (s : State) : Host.Outcome State Fault Refusal :=
  commit s (binaryResult addWords m1 m2 m3 s)

/-- R121 Multiply. -/
def execMultiply (m1 m2 m3 : Mode) (s : State) : Host.Outcome State Fault Refusal :=
  commit s (binaryResult multiplyWords m1 m2 m3 s)

/-- R122 LessThan. -/
def execLessThan (m1 m2 m3 : Mode) (s : State) : Host.Outcome State Fault Refusal :=
  commit s (binaryResult lessThanWords m1 m2 m3 s)

/-- R123 Equals. -/
def execEquals (m1 m2 m3 : Mode) (s : State) : Host.Outcome State Fault Refusal :=
  commit s (binaryResult equalsWords m1 m2 m3 s)

end Sys2Proof.Machine
end

