-- ==== Sys2Proof/Machine/Control.lean ====
section
/-! DEFINITION. JumpIfTrue, JumpIfFalse and Halt (spec/43_control.md). -/

namespace Sys2Proof.Machine

/-- R106: the checked next instruction pointer of a jump with target `t`. -/
def jumpNext (taken : Bool) (t : Word) (s : State) : Except Condition Addr :=
  if taken then checkAddr t.val else fallThrough s 3

/-- The shape the two jumps share: both operands are resolved whether or not the jump is taken (R105), then the next ip is checked
(R106). `taken` says of the condition's value whether the jump is taken. -/
def jumpResult (taken : Word → Bool) (m1 m2 : Mode) (s : State) : Except Condition State := do
  let c ← srcOperand s 1 m1
  let t ← srcOperand s 2 m2
  let next ← jumpNext (taken c) t s
  pure { s with ip := next }

/-- R160 JumpIfTrue. -/
def execJumpIfTrue (m1 m2 : Mode) (s : State) : Host.Outcome State Fault Refusal :=
  commit s (jumpResult wordNonzero m1 m2 s)

/-- R161 JumpIfFalse. -/
def execJumpIfFalse (m1 m2 : Mode) (s : State) : Host.Outcome State Fault Refusal :=
  commit s (jumpResult (fun c => !wordNonzero c) m1 m2 s)

/-- R162 Halt: `ip` keeps the address of the Halt instruction (D13). -/
def execHalt (s : State) : Host.Outcome State Fault Refusal :=
  commit s (pure { s with runState := .halted })

end Sys2Proof.Machine
end

