-- ==== Sys2Proof/Machine/Agent.lean ====
section
/-! DEFINITION. The agent output state machine (spec/45_agent_fsm.md). Its operations see the agent's own state and the emitted word,
nothing else (R190). -/

namespace Sys2Proof.Machine

/-- R193: the two turn commands. -/
inductive TurnDir where
  | left
  | right
  deriving DecidableEq, Repr

/-- R193: 0 turns left, every other word right. -/
def turnDir (v : Word) : TurnDir := if wordNonzero v then .right else .left

/-- R194: the rotation table. -/
def Heading.rotate : Heading → TurnDir → Heading
  | .north, .left => .west
  | .west, .left => .south
  | .south, .left => .east
  | .east, .left => .north
  | .north, .right => .east
  | .east, .right => .south
  | .south, .right => .west
  | .west, .right => .north

/-- R195: the `x` part of a heading's unit step (D8). -/
def Heading.dx : Heading → Int
  | .north => 0
  | .east => 1
  | .south => 0
  | .west => -1

/-- R195: the `y` part of a heading's unit step (D8). -/
def Heading.dy : Heading → Int
  | .north => -1
  | .east => 0
  | .south => 1
  | .west => 0

/-- R195, R199: the cell one unit along a heading. -/
def Coord.move (p : Coord) (h : Heading) : Except Condition Coord := do
  let x ← checkCoord (p.x.val + Heading.dx h)
  let y ← checkCoord (p.y.val + Heading.dy h)
  pure ⟨x, y⟩

/-- R192: the Paint transition. -/
def Agent.paintTransition (a : Agent) (v : Word) : Agent :=
  { a with paint := a.paint.put a.pos v, phase := .turn }

/-- R193 to R196: the Turn transition. -/
def Agent.turnTransition (a : Agent) (v : Word) : Except Condition Agent := do
  let heading := Heading.rotate a.heading (turnDir v)
  let pos ← Coord.move a.pos heading
  pure { a with heading := heading, pos := pos, pending := a.paint.colour pos, phase := .paint }

/-- R191 `emitOutput(v)`: one transition, by the phase. -/
def emitOutput (a : Agent) (v : Word) : Except Condition Agent :=
  match a.phase with
  | .paint => pure (Agent.paintTransition a v)
  | .turn => Agent.turnTransition a v

/-- R197 `nextInputValue()`. -/
def nextInputValue (a : Agent) : Word := a.pending

end Sys2Proof.Machine
end

