-- ==== Sys2Proof/Machine/Io.lean ====
section
/-! DEFINITION. Input and Output (spec/42_io.md). -/

namespace Sys2Proof.Machine

/-- R140: the state after Input, or the condition it raises. -/
def inputResult (m1 : Mode) (s : State) : Except Condition State := do
  let d ← dstOperand s 1 m1
  let v := nextInputValue s.agent
  let next ← fallThrough s 2
  pure { s with mem := s.mem.write d v, ip := next }

/-- R141: the state after Output, or the condition it raises. The next-ip check precedes the coordinate check (R228). -/
def outputResult (m1 : Mode) (s : State) : Except Condition State := do
  let v ← srcOperand s 1 m1
  let next ← fallThrough s 2
  let agent ← emitOutput s.agent v
  pure { s with agent := agent, outlog := s.outlog ++ [v], ip := next }

/-- R140 Input. -/
def execInput (m1 : Mode) (s : State) : Host.Outcome State Fault Refusal :=
  commit s (inputResult m1 s)

/-- R141 Output. -/
def execOutput (m1 : Mode) (s : State) : Host.Outcome State Fault Refusal :=
  commit s (outputResult m1 s)

end Sys2Proof.Machine
end

