-- ==== Sys2Proof/Machine/RelativeBase.lean ====
section
/-! DEFINITION. AdjustRelativeBase (spec/44_relative_base.md). -/

namespace Sys2Proof.Machine

/-- R180: the state after AdjustRelativeBase, or the condition it raises. A Relative operand uses the old `rb`. -/
def adjustRelativeBaseResult (m1 : Mode) (s : State) : Except Condition State := do
  let v ← srcOperand s 1 m1
  let r ← checkWord (s.rb.val + v.val)
  let next ← fallThrough s 2
  pure { s with rb := r, ip := next }

/-- R180 AdjustRelativeBase. -/
def execAdjustRelativeBase (m1 : Mode) (s : State) : Host.Outcome State Fault Refusal :=
  commit s (adjustRelativeBaseResult m1 s)

end Sys2Proof.Machine
end

