-- ==== Sys2Proof/Machine/Step.lean ====
section
/-! DEFINITION. The step (spec/40_dispatch.md R108) and the placing of a program word where the step fetches. -/

namespace Sys2Proof.Machine

/-- R101, R108: one whole instruction, enabled in `Running` alone. A word that does not decode raises its condition (R103). -/
def step (s : State) : Host.Outcome State Fault Refusal :=
  match s.runState with
  | .running =>
    match fetchDecode s with
    | .ok i => exec i s
    | .error c => .next (takeFatal c s)
  | .halted => .fault (.notEnabled .halted)
  | .faulted => .fault (.notEnabled .faulted)

/-- `s` with the cells of the instruction whose bits are `w` stored from `ip` on, and enabled to step (log entries 5 and 6). -/
def State.withFetchWord (s : State) (nbits w : Nat) : State :=
  { s with
    mem := s.mem.storeCells s.ip.val (tableCells nbits w)
    runState := .running
    cause := .none
    faultInfo := 0 }

end Sys2Proof.Machine
end

