-- ==== Sys2Proof/Safety.lean ====
section
/-! DEFINITION. Runs (spec/40_dispatch.md section 3) and what holds of the state between steps, in the terms the statements use. -/

namespace Sys2Proof.Safety

open Sys2Proof.Machine

/-- R110: the state after at most `n` steps, stopping where no step is enabled. -/
def run : Nat → State → State
  | 0, s => s
  | n + 1, s =>
    match step s with
    | .next t => run n t
    | .fault _ => s
    | .refused _ => s

/-- R110: the states of a run from reset with a given image and `init_input`. -/
inductive Reachable (image : List Word) (initInput : Word) : State → Prop where
  | reset : Reachable image initInput (State.resetWith image initInput)
  | step {s t : State} : Reachable image initInput s → Machine.step s = .next t → Reachable image initInput t

/-- R111: the run from reset ends in `Halted` with result `n`. -/
def HaltsWith (image : List Word) (initInput : Word) (n : Nat) : Prop :=
  ∃ s, Reachable image initInput s ∧ s.result = some n

/-- A safe run: no state of it is `Faulted`, so no fatal condition was raised (R111: a faulted run has no result). -/
def NeverFaults (image : List Word) (initInput : Word) : Prop :=
  ∀ s, Reachable image initInput s → s.runState ≠ .faulted

/-- The canonical form of the two finite maps. -/
abbrev CanonicalMaps (s : State) : Prop := s.mem.wf ∧ s.agent.paint.wf

/-- R24: `cause` and `fault_info` are set only on entry to `Faulted`. -/
abbrev StatusConsistent (s : State) : Prop :=
  (s.runState = .faulted ↔ s.cause ≠ .none) ∧ (s.runState ≠ .faulted → s.faultInfo = 0)

/-- R201: the phase is `Paint` after an even number of outputs and `Turn` after an odd number. -/
abbrev PhaseMatchesOutputs (s : State) : Prop := (s.agent.phase = .paint ↔ s.outlog.length % 2 = 0)

/-- R34: the paint count never exceeds the number of outputs made in the Paint phase, which is the half of all outputs, rounded up.
That the paint map is in canonical form is the model's own conjunct (log entry 9). -/
abbrev PaintCountBounded (s : State) : Prop :=
  PhaseMatchesOutputs s ∧ s.agent.paint.wf ∧ s.paintCount ≤ (s.outlog.length + 1) / 2

/-- R199: the agent is at most as many units from the start as it has made moves, one for every second output. -/
abbrev WithinMoves (s : State) : Prop :=
  PhaseMatchesOutputs s ∧
    s.agent.pos.x.val.natAbs + s.agent.pos.y.val.natAbs ≤ s.outlog.length / 2

/-- R203: the heading is vertical after an even number of moves and horizontal after an odd number. -/
abbrev HeadingMatchesMoves (s : State) : Prop :=
  PhaseMatchesOutputs s ∧ (Heading.code s.agent.heading % 2 = s.outlog.length / 2 % 2)

/-- R36, R196: in the Paint phase, once the agent has moved, the pending input is the colour of the cell it stands on. -/
abbrev PendingIsColourHere (s : State) : Prop :=
  s.agent.phase = .paint → s.outlog ≠ [] → s.agent.pending = s.agent.paint.colour s.agent.pos

/-- R191: the agent's transitions for a sequence of emitted words. -/
def replay : Agent → List Word → Except Condition Agent
  | a, [] => .ok a
  | a, v :: vs =>
    match emitOutput a v with
    | .ok b => replay b vs
    | .error c => .error c

/-- R190: the agent's state is what the emitted words make of its reset state; it has no other input. -/
abbrev AgentFollowsOutlog (initInput : Word) (s : State) : Prop :=
  replay { Agent.reset with pending := initInput } s.outlog = .ok s.agent

/-- R120 to R123: the operands of a three-operand instruction resolve, to the values `a`, `b` and the write address `d`. -/
abbrev Resolves (s : State) (m1 m2 m3 : Mode) (a b : Word) (d : Addr) : Prop :=
  srcOperand s 1 m1 = .ok a ∧ srcOperand s 2 m2 = .ok b ∧ dstOperand s 3 m3 = .ok d

/-- R62: the step from `s` goes on, to the cell `d`, and the next step fetches and decodes the word `w` there. -/
abbrev NextFetches (s : State) (d : Addr) (w : Word) : Prop :=
  ∃ t, step s = .next t ∧ t.runState = .running ∧ t.ip = d ∧ t.mem.read t.ip = w ∧ fetchDecode t = decode w

/-- R35: two states that differ at most in `outlog`. -/
abbrev AgreeButOutlog (s u : State) : Prop := { s with outlog := u.outlog } = u

/-- R181: what a step from `s` adds to `rb`: the operand value of an AdjustRelativeBase that raises no condition, else nothing. -/
def adjustment (s : State) : Int :=
  match step s, fetchDecode s with
  | .next t, .ok (.adjustRelativeBase m) =>
    if t.runState = .faulted then 0
    else
      match srcOperand s 1 m with
      | .ok v => v.val
      | .error _ => 0
  | _, _ => 0

end Sys2Proof.Safety
end

