-- ==== Sys2Proof/Certificates/Slice0/Obligations.lean ====
section
/-! DEFINITION. The statements for the provers, each with the rule or section of spec/ it formalises. Where a clause rests on a choice
the spec marks as its own decision (D<n> of spec/92_eei_decisions.md), on an inference it marks `[derived]`, or on a log entry of the
model, the docstring says so. -/

open Sys2Proof Sys2Proof.Machine Sys2Proof.Safety

/-! ## Decoding and encoding -/

/-- Words written out digit by digit from 30_encoding.md R71 (opcode the low two digits, mode_1 the digit above them, and so on),
one or more for every family. -/
def Obligations.DecodeReadsWordsOfTheTable : Prop :=
  decode (.lit 1) = .ok (.add .position .position .position) ∧
    decode (.lit 1002) = .ok (.multiply .position .immediate .position) ∧
    decode (.lit 203) = .ok (.input .relative) ∧
    decode (.lit 104) = .ok (.output .immediate) ∧
    decode (.lit 1105) = .ok (.jumpIfTrue .immediate .immediate) ∧
    decode (.lit 1206) = .ok (.jumpIfFalse .relative .immediate) ∧
    decode (.lit 21107) = .ok (.lessThan .immediate .immediate .relative) ∧
    decode (.lit 22208) = .ok (.equals .relative .relative .relative) ∧
    decode (.lit 109) = .ok (.adjustRelativeBase .immediate) ∧
    decode (.lit 99) = .ok .halt

/-- Decode and encode agree on whole lines of code (R70, R76, R88): the cells of any well-formed line, whatever cells follow it, decode
to that line and leave exactly what follows. Every instruction, every mode and every raw operand word is covered. -/
def Obligations.LineDecodesFromItsCells : Prop :=
  ∀ (l : CodeLine) (rest : List Word), l.WellFormed → decodeLine (l.cells ++ rest) = .ok (l, rest)

/-- R84 (`[derived]`, with R83): digits 0 to 2 above the operand count, any number of them, change nothing. With `rest = 0` this is
the round trip of `encode` and `decode`. -/
def Obligations.DecodeIgnoresUnconsumedDigits : Prop :=
  ∀ (i : Instr) (rest : Nat) (w : Word), (∀ k, digitAt k rest ≤ 2) →
    w.val = (encodeNat i + 10 ^ (2 + i.operandCount) * rest : Nat) → decode w = .ok i

/-- R71 to R76, R85: exactly which words decode to an instruction, digit by digit. That every mode digit is checked is the spec's own
decision D10, that a negative word is refused D11. -/
def Obligations.DecodeIsTheDigitReading : Prop :=
  ∀ (w : Word) (i : Instr), decode w = .ok i ↔
    0 ≤ w.val ∧ w.val.toNat % 100 = i.opcode ∧ (∀ k, 2 ≤ k → digitAt k w.val.toNat ≤ 2) ∧
      ∀ k m, i.modes[k]? = some m → digitAt (k + 2) w.val.toNat = m.digit

/-- R72, R82, R222: exactly which words raise `UnknownOpcode`. That a negative word does is the spec's own decision D11. -/
def Obligations.UnknownOpcodeExactly : Prop :=
  ∀ w v : Word, decode w = .error (.unknownOpcode v) ↔
    v = w ∧ (w.val < 0 ∨ w.val.toNat % 100 ∉ [1, 2, 3, 4, 5, 6, 7, 8, 9, 99])

/-- R75, R83, R223: exactly which words raise `MalformedModeDigit`. That unconsumed digits count is the spec's own decision D10, that the
opcode is checked first D15. -/
def Obligations.MalformedModeDigitExactly : Prop :=
  ∀ w v : Word, decode w = .error (.malformedModeDigit v) ↔
    v = w ∧ 0 ≤ w.val ∧ w.val.toNat % 100 ∈ [1, 2, 3, 4, 5, 6, 7, 8, 9, 99] ∧ ∃ k, 2 ≤ k ∧ 2 < digitAt k w.val.toNat

/-- The host's placing of a table word (log entry 6, the model's choice): with the opcode cell of `i` placed where the step fetches,
the next step is `exec i`. -/
def Obligations.PlacedWordRunsNext : Prop :=
  ∀ (s : State) (i : Instr) (nbits : Nat), 64 ≤ nbits → decodeTableWord nbits (encodeNat i) = some i ∧
    step (s.withFetchWord nbits (encodeNat i)) = exec i (s.withFetchWord nbits (encodeNat i))

/-! ## Memory -/

/-- R51, R52: over any image and after any sequence of writes, a cell reads as the most recent write to it, or the image's word, or 0.
The image's words from `2^63` on have no address, so no length is assumed. -/
def Obligations.ReadGivesLastWriteOrImageOrZero : Prop :=
  ∀ (image : List Word) (ws : List (Addr × Word)) (a : Addr),
    (ws.foldl (fun m e => m.write e.1 e.2) (Memory.ofImage image)).read a =
      match ws.reverse.find? (fun e => e.1 = a) with
      | some e => e.2
      | none => image.getD a.val Word.zero

/-- The canonical form of log entry 1 (the model's choice): two canonical memories that read alike at every address are the same data. -/
def Obligations.CanonicalMemoriesReadingAlikeAreEqual : Prop :=
  ∀ m n : Memory, m.wf → n.wf → (∀ a, m.read a = n.read a) → m = n

/-! ## Operands -/

/-- R77, with R53 and R221 for the indices that are no `Addr`: the value of source operand `k` in each mode, `cell` its operand cell.
That an index above `2^63 - 1` is refused is the spec's own decision D5. -/
def Obligations.SourceOperandByMode : Prop :=
  ∀ (s : State) (k : Nat),
    (∀ cell : Addr, cell.val = s.ip.val + k →
      srcOperand s k .immediate = .ok (s.mem.read cell) ∧
      (∀ a : Addr, (a.val : Int) = (s.mem.read cell).val → srcOperand s k .position = .ok (s.mem.read a)) ∧
      (¬ InAddr (s.mem.read cell).val → srcOperand s k .position = .error (.invalidAddress (s.mem.read cell).val)) ∧
      (∀ a : Addr, (a.val : Int) = (s.mem.read cell).val + s.rb.val → srcOperand s k .relative = .ok (s.mem.read a)) ∧
      (¬ InAddr ((s.mem.read cell).val + s.rb.val) →
        srcOperand s k .relative = .error (.invalidAddress ((s.mem.read cell).val + s.rb.val)))) ∧
    ∀ m, 9223372036854775807 < s.ip.val + k → srcOperand s k m = .error (.invalidAddress ((s.ip.val : Int) + k))

/-- R78, with R53 and R221: the write address of destination operand `k` in each mode, never dereferenced. That an index above
`2^63 - 1` is refused is the spec's own decision D5. -/
def Obligations.DestinationOperandByMode : Prop :=
  ∀ (s : State) (k : Nat),
    (∀ cell : Addr, cell.val = s.ip.val + k →
      (∀ m, m = .position ∨ m = .immediate →
        (∀ a : Addr, (a.val : Int) = (s.mem.read cell).val → dstOperand s k m = .ok a) ∧
        (¬ InAddr (s.mem.read cell).val → dstOperand s k m = .error (.invalidAddress (s.mem.read cell).val))) ∧
      (∀ a : Addr, (a.val : Int) = (s.mem.read cell).val + s.rb.val → dstOperand s k .relative = .ok a) ∧
      (¬ InAddr ((s.mem.read cell).val + s.rb.val) →
        dstOperand s k .relative = .error (.invalidAddress ((s.mem.read cell).val + s.rb.val)))) ∧
    ∀ m, 9223372036854775807 < s.ip.val + k → dstOperand s k m = .error (.invalidAddress ((s.ip.val : Int) + k))

/-- R79: the Immediate digit on a destination is legal, gives the same write address as Position, the raw cell value, and raises no
condition where that value is an address. -/
def Obligations.ImmediateDestinationIsTheRawCell : Prop :=
  ∀ (s : State) (k : Nat), dstOperand s k .immediate = dstOperand s k .position ∧
    ∀ cell a : Addr, cell.val = s.ip.val + k → (a.val : Int) = (s.mem.read cell).val → dstOperand s k .immediate = .ok a

/-! ## The instructions: result, and every condition after the operands -/

/-- R120, R124: Add writes the exact sum and falls through. A sum that is no `Word` raises `ArithmeticOverflow` (the spec's own decision
D4), and only then is the next ip checked (D5, D14, D15). -/
def Obligations.AddWritesTheSum : Prop :=
  ∀ (s : State) (m1 m2 m3 : Mode) (a b : Word) (d : Addr), Resolves s m1 m2 m3 a b d →
    (∀ (r : Word) (n : Addr), r.val = a.val + b.val → n.val = s.ip.val + 4 →
      exec (.add m1 m2 m3) s = .next { s with mem := s.mem.write d r, ip := n }) ∧
    (¬ InWord (a.val + b.val) →
      exec (.add m1 m2 m3) s =
        .next { s with runState := .faulted, cause := .arithmeticOverflow, faultInfo := a.val + b.val }) ∧
    (InWord (a.val + b.val) → 9223372036854775807 < s.ip.val + 4 →
      exec (.add m1 m2 m3) s =
        .next { s with runState := .faulted, cause := .invalidAddress, faultInfo := (s.ip.val : Int) + 4 })

/-- R121, R124: Multiply writes the exact product and falls through. Overflow as for Add (the spec's own decisions D4, D5, D14, D15). -/
def Obligations.MultiplyWritesTheProduct : Prop :=
  ∀ (s : State) (m1 m2 m3 : Mode) (a b : Word) (d : Addr), Resolves s m1 m2 m3 a b d →
    (∀ (r : Word) (n : Addr), r.val = a.val * b.val → n.val = s.ip.val + 4 →
      exec (.multiply m1 m2 m3) s = .next { s with mem := s.mem.write d r, ip := n }) ∧
    (¬ InWord (a.val * b.val) →
      exec (.multiply m1 m2 m3) s =
        .next { s with runState := .faulted, cause := .arithmeticOverflow, faultInfo := a.val * b.val }) ∧
    (InWord (a.val * b.val) → 9223372036854775807 < s.ip.val + 4 →
      exec (.multiply m1 m2 m3) s =
        .next { s with runState := .faulted, cause := .invalidAddress, faultInfo := (s.ip.val : Int) + 4 })

/-- R122: LessThan writes 1 when `a < b`, signed, and 0 otherwise, and falls through. It never overflows. The next-ip check is the
spec's own decision D5, D14. -/
def Obligations.LessThanWritesOneOrZero : Prop :=
  ∀ (s : State) (m1 m2 m3 : Mode) (a b : Word) (d : Addr), Resolves s m1 m2 m3 a b d →
    (∀ n : Addr, n.val = s.ip.val + 4 →
      (a.val < b.val → exec (.lessThan m1 m2 m3) s = .next { s with mem := s.mem.write d (.lit 1), ip := n }) ∧
      (b.val ≤ a.val → exec (.lessThan m1 m2 m3) s = .next { s with mem := s.mem.write d (.lit 0), ip := n })) ∧
    (9223372036854775807 < s.ip.val + 4 →
      exec (.lessThan m1 m2 m3) s =
        .next { s with runState := .faulted, cause := .invalidAddress, faultInfo := (s.ip.val : Int) + 4 })

/-- R123: Equals writes 1 when the values are equal and 0 otherwise, and falls through. It never overflows. The next-ip check is the
spec's own decision D5, D14. -/
def Obligations.EqualsWritesOneOrZero : Prop :=
  ∀ (s : State) (m1 m2 m3 : Mode) (a b : Word) (d : Addr), Resolves s m1 m2 m3 a b d →
    (∀ n : Addr, n.val = s.ip.val + 4 →
      (a.val = b.val → exec (.equals m1 m2 m3) s = .next { s with mem := s.mem.write d (.lit 1), ip := n }) ∧
      (a.val ≠ b.val → exec (.equals m1 m2 m3) s = .next { s with mem := s.mem.write d (.lit 0), ip := n })) ∧
    (9223372036854775807 < s.ip.val + 4 →
      exec (.equals m1 m2 m3) s =
        .next { s with runState := .faulted, cause := .invalidAddress, faultInfo := (s.ip.val : Int) + 4 })

/-- R140: Input writes the pending input and falls through; the agent is unchanged. The next-ip check is the spec's own decision
D5, D14. -/
def Obligations.InputWritesThePendingInput : Prop :=
  ∀ (s : State) (m1 : Mode) (d : Addr), dstOperand s 1 m1 = .ok d →
    (∀ n : Addr, n.val = s.ip.val + 2 →
      exec (.input m1) s = .next { s with mem := s.mem.write d s.agent.pending, ip := n }) ∧
    (9223372036854775807 < s.ip.val + 2 →
      exec (.input m1) s =
        .next { s with runState := .faulted, cause := .invalidAddress, faultInfo := (s.ip.val : Int) + 2 })

/-- R141 with R192, R200, R204: Output in the Paint phase. The agent's cell takes the emitted word as its colour, every other cell keeps
its colour, the key set gains that cell alone, the phase becomes `Turn`, and the word is logged (D18). -/
def Obligations.OutputInPaintPhasePaints : Prop :=
  ∀ (s : State) (m1 : Mode) (v : Word) (n : Addr), srcOperand s 1 m1 = .ok v → n.val = s.ip.val + 2 → s.agent.phase = .paint →
    ∃ paint : PaintMap,
      exec (.output m1) s =
        .next { s with agent := { s.agent with paint := paint, phase := .turn }, outlog := s.outlog ++ [v], ip := n } ∧
      paint.colour s.agent.pos = v ∧ (∀ q, q ≠ s.agent.pos → paint.colour q = s.agent.paint.colour q) ∧
      ∀ q, q ∈ paint.keys ↔ q = s.agent.pos ∨ q ∈ s.agent.paint.keys

/-- R141 with R193 to R196, R200, R204: Output in the Turn phase, when the new position is in range. The agent turns by the word, moves
one unit along the new heading (axes by the spec's decision D8), takes the colour of the new cell as the pending input, the phase
becomes `Paint`, and the word is logged (D18). -/
def Obligations.OutputInTurnPhaseTurnsAndMoves : Prop :=
  ∀ (s : State) (m1 : Mode) (v : Word) (n : Addr) (h : Heading) (p : Coord), srcOperand s 1 m1 = .ok v → n.val = s.ip.val + 2 →
    s.agent.phase = .turn → h = Heading.rotate s.agent.heading (turnDir v) →
    p.x.val = s.agent.pos.x.val + Heading.dx h → p.y.val = s.agent.pos.y.val + Heading.dy h →
    exec (.output m1) s =
      .next { s with
        agent := { s.agent with heading := h, pos := p, pending := s.agent.paint.colour p, phase := .paint }
        outlog := s.outlog ++ [v]
        ip := n }

/-- R141 with R199, R225, R228: what Output raises once its operand is resolved, the next ip first (the spec's own decisions D5, D14,
D15), then the coordinate of a Turn move (D16). -/
def Obligations.OutputConditionsAfterTheOperand : Prop :=
  ∀ (s : State) (m1 : Mode) (v : Word) (h : Heading), srcOperand s 1 m1 = .ok v →
    h = Heading.rotate s.agent.heading (turnDir v) →
    (9223372036854775807 < s.ip.val + 2 →
      exec (.output m1) s =
        .next { s with runState := .faulted, cause := .invalidAddress, faultInfo := (s.ip.val : Int) + 2 }) ∧
    (s.ip.val + 2 ≤ 9223372036854775807 → s.agent.phase = .turn → ¬ InWord (s.agent.pos.x.val + Heading.dx h) →
      exec (.output m1) s =
        .next { s with
          runState := .faulted, cause := .coordinateOverflow, faultInfo := s.agent.pos.x.val + Heading.dx h }) ∧
    (s.ip.val + 2 ≤ 9223372036854775807 → s.agent.phase = .turn → ¬ InWord (s.agent.pos.y.val + Heading.dy h) →
      exec (.output m1) s =
        .next { s with
          runState := .faulted, cause := .coordinateOverflow, faultInfo := s.agent.pos.y.val + Heading.dy h })

/-- R160, R163, R106: JumpIfTrue goes to the target when the condition is nonzero and falls through when it is 0; either next ip is
checked, and the one not taken is not (the spec's own decisions D5, D14). -/
def Obligations.JumpIfTrueJumpsOnNonzero : Prop :=
  ∀ (s : State) (m1 m2 : Mode) (c t : Word), srcOperand s 1 m1 = .ok c → srcOperand s 2 m2 = .ok t →
    (c.val ≠ 0 → ∀ n : Addr, (n.val : Int) = t.val → exec (.jumpIfTrue m1 m2) s = .next { s with ip := n }) ∧
    (c.val = 0 → ∀ n : Addr, n.val = s.ip.val + 3 → exec (.jumpIfTrue m1 m2) s = .next { s with ip := n }) ∧
    (c.val ≠ 0 → t.val < 0 →
      exec (.jumpIfTrue m1 m2) s =
        .next { s with runState := .faulted, cause := .invalidAddress, faultInfo := t.val }) ∧
    (c.val = 0 → 9223372036854775807 < s.ip.val + 3 →
      exec (.jumpIfTrue m1 m2) s =
        .next { s with runState := .faulted, cause := .invalidAddress, faultInfo := (s.ip.val : Int) + 3 })

/-- R161, R163, R106: JumpIfFalse, the condition inverted. -/
def Obligations.JumpIfFalseJumpsOnZero : Prop :=
  ∀ (s : State) (m1 m2 : Mode) (c t : Word), srcOperand s 1 m1 = .ok c → srcOperand s 2 m2 = .ok t →
    (c.val = 0 → ∀ n : Addr, (n.val : Int) = t.val → exec (.jumpIfFalse m1 m2) s = .next { s with ip := n }) ∧
    (c.val ≠ 0 → ∀ n : Addr, n.val = s.ip.val + 3 → exec (.jumpIfFalse m1 m2) s = .next { s with ip := n }) ∧
    (c.val = 0 → t.val < 0 →
      exec (.jumpIfFalse m1 m2) s =
        .next { s with runState := .faulted, cause := .invalidAddress, faultInfo := t.val }) ∧
    (c.val ≠ 0 → 9223372036854775807 < s.ip.val + 3 →
      exec (.jumpIfFalse m1 m2) s =
        .next { s with runState := .faulted, cause := .invalidAddress, faultInfo := (s.ip.val : Int) + 3 })

/-- R180: AdjustRelativeBase adds the operand value, resolved with the old `rb`, and falls through. Overflow and the next-ip check are
the spec's own decisions D4, D5, D14, D15. -/
def Obligations.AdjustRelativeBaseAddsTheOperand : Prop :=
  ∀ (s : State) (m1 : Mode) (v : Word), srcOperand s 1 m1 = .ok v →
    (∀ (r : Word) (n : Addr), r.val = s.rb.val + v.val → n.val = s.ip.val + 2 →
      exec (.adjustRelativeBase m1) s = .next { s with rb := r, ip := n }) ∧
    (¬ InWord (s.rb.val + v.val) →
      exec (.adjustRelativeBase m1) s =
        .next { s with runState := .faulted, cause := .arithmeticOverflow, faultInfo := s.rb.val + v.val }) ∧
    (InWord (s.rb.val + v.val) → 9223372036854775807 < s.ip.val + 2 →
      exec (.adjustRelativeBase m1) s =
        .next { s with runState := .faulted, cause := .invalidAddress, faultInfo := (s.ip.val : Int) + 2 })

/-- R162: Halt sets the run state and nothing else; `ip` keeps the Halt cell (the spec's own decision D13). -/
def Obligations.HaltSetsTheRunStateAlone : Prop :=
  ∀ s : State, exec .halt s = .next { s with runState := .halted }

/-- R105, R228: the operands are resolved in order, the first one that fails gives the condition, before any arithmetic or next-ip check
and whether or not a jump is taken. The order is the spec's own decision D15. -/
def Obligations.OperandConditionsAreRaisedInOrder : Prop :=
  ∀ (s : State) (m1 m2 m3 : Mode) (e : Condition),
    (srcOperand s 1 m1 = .error e →
      ∀ i ∈ [Instr.add m1 m2 m3, .multiply m1 m2 m3, .lessThan m1 m2 m3, .equals m1 m2 m3, .output m1, .jumpIfTrue m1 m2,
        .jumpIfFalse m1 m2, .adjustRelativeBase m1],
        exec i s = .next { s with runState := .faulted, cause := Condition.cause e, faultInfo := Condition.info e }) ∧
    (∀ a, srcOperand s 1 m1 = .ok a → srcOperand s 2 m2 = .error e →
      ∀ i ∈ [Instr.add m1 m2 m3, .multiply m1 m2 m3, .lessThan m1 m2 m3, .equals m1 m2 m3, .jumpIfTrue m1 m2, .jumpIfFalse m1 m2],
        exec i s = .next { s with runState := .faulted, cause := Condition.cause e, faultInfo := Condition.info e }) ∧
    (∀ a b, srcOperand s 1 m1 = .ok a → srcOperand s 2 m2 = .ok b → dstOperand s 3 m3 = .error e →
      ∀ i ∈ [Instr.add m1 m2 m3, .multiply m1 m2 m3, .lessThan m1 m2 m3, .equals m1 m2 m3],
        exec i s = .next { s with runState := .faulted, cause := Condition.cause e, faultInfo := Condition.info e }) ∧
    (dstOperand s 1 m1 = .error e →
      exec (.input m1) s = .next { s with runState := .faulted, cause := Condition.cause e, faultInfo := Condition.info e })

/-! ## Frames: what an instruction leaves unchanged when it has a next state -/

/-- R107, R120 to R123, R226: Add, Multiply, LessThan and Equals change no register but `ip`, no agent state and no log, and no cell but
the one the destination operand names. The status fields change only on a fatal condition, which then changes nothing else. -/
def Obligations.ArithmeticFrame : Prop :=
  ∀ (s t : State) (m1 m2 m3 : Mode),
    ∀ i ∈ [Instr.add m1 m2 m3, .multiply m1 m2 m3, .lessThan m1 m2 m3, .equals m1 m2 m3], exec i s = .next t →
      t.rb = s.rb ∧ t.agent = s.agent ∧ t.outlog = s.outlog ∧
      (∀ d, dstOperand s 3 m3 = .ok d → ∀ b, b ≠ d → t.mem.read b = s.mem.read b) ∧
      ((∀ d, dstOperand s 3 m3 ≠ .ok d) → ∀ b, t.mem.read b = s.mem.read b) ∧
      ((t.runState = s.runState ∧ t.cause = s.cause ∧ t.faultInfo = s.faultInfo) ∨
        (t.runState = .faulted ∧ t.cause ≠ .none ∧ t.ip = s.ip ∧ ∀ b, t.mem.read b = s.mem.read b))

/-- R107, R140, R226: the frame of Input. -/
def Obligations.InputFrame : Prop :=
  ∀ (s t : State) (m1 : Mode), exec (.input m1) s = .next t →
    t.rb = s.rb ∧ t.agent = s.agent ∧ t.outlog = s.outlog ∧
    (∀ d, dstOperand s 1 m1 = .ok d → ∀ b, b ≠ d → t.mem.read b = s.mem.read b) ∧
    ((∀ d, dstOperand s 1 m1 ≠ .ok d) → ∀ b, t.mem.read b = s.mem.read b) ∧
    ((t.runState = s.runState ∧ t.cause = s.cause ∧ t.faultInfo = s.faultInfo) ∨
      (t.runState = .faulted ∧ t.cause ≠ .none ∧ t.ip = s.ip ∧ ∀ b, t.mem.read b = s.mem.read b))

/-- R107, R141, R160 to R162, R180, R226: Output, the jumps, AdjustRelativeBase and Halt store to no cell; all but AdjustRelativeBase leave
`rb`; all but Output leave the agent and the log; Halt leaves `ip` and writes `run_state` alone (D13). A fatal condition leaves all but
the status fields. -/
def Obligations.NonStoringFrame : Prop :=
  ∀ (s t : State) (m1 m2 : Mode),
    ∀ i ∈ [Instr.output m1, .jumpIfTrue m1 m2, .jumpIfFalse m1 m2, .adjustRelativeBase m1, .halt], exec i s = .next t →
      (∀ b, t.mem.read b = s.mem.read b) ∧
      (i ≠ .adjustRelativeBase m1 → t.rb = s.rb) ∧
      (i ≠ .output m1 → t.agent = s.agent ∧ t.outlog = s.outlog) ∧
      (i = .halt → t.ip = s.ip ∧ t.runState = .halted ∧ t.cause = s.cause ∧ t.faultInfo = s.faultInfo) ∧
      (i ≠ .halt →
        (t.runState = s.runState ∧ t.cause = s.cause ∧ t.faultInfo = s.faultInfo) ∨
          (t.runState = .faulted ∧ t.cause ≠ .none ∧ t.ip = s.ip ∧ t.rb = s.rb ∧ t.agent = s.agent ∧ t.outlog = s.outlog))

/-! ## The agent's tables -/

/-- R192: the Paint transition. The value is stored as emitted, the cell's key is added, also for the value 0, or keeps its place, no
other cell changes, the phase becomes `Turn`, and `pos`, `heading` and `pending` are unchanged. -/
def Obligations.PaintTransitionRecordsTheColour : Prop :=
  ∀ (a : Agent) (v : Word), a.phase = .paint →
    ∃ paint : PaintMap, emitOutput a v = .ok { a with paint := paint, phase := .turn } ∧
      paint.colour a.pos = v ∧ (∀ q, q ≠ a.pos → paint.colour q = a.paint.colour q) ∧
      ∀ q, q ∈ paint.keys ↔ q = a.pos ∨ q ∈ a.paint.keys

/-- R196: a Turn transition sets the pending input to the colour of the new cell, 0 when it was never painted, the phase becomes `Paint`,
and the paint map is unchanged. The last clause reads the painted value off the list, under the premise that the map is in the model's own
canonical form (log entry 9), not the spec's. -/
def Obligations.TurnTransitionFeedsBackTheColour : Prop :=
  ∀ (a b : Agent) (v : Word), a.phase = .turn → emitOutput a v = .ok b →
    b.phase = .paint ∧ b.paint = a.paint ∧ b.pending = b.paint.colour b.pos ∧
      (b.pos ∉ b.paint.keys → b.pending.val = 0) ∧ ∀ w, b.paint.wf → (b.pos, w) ∈ b.paint → b.pending = w

/-- R193, and the rotation table of R194: 0 selects Left and every other word Right, and the rotation table. -/
def Obligations.TurnCommandRotatesByTheTable : Prop :=
  (∀ v : Word, turnDir v = .left ↔ v.val = 0) ∧ (∀ v : Word, turnDir v = .right ↔ v.val ≠ 0) ∧
    Heading.rotate .north .left = .west ∧ Heading.rotate .west .left = .south ∧
    Heading.rotate .south .left = .east ∧ Heading.rotate .east .left = .north ∧
    Heading.rotate .north .right = .east ∧ Heading.rotate .east .right = .south ∧
    Heading.rotate .south .right = .west ∧ Heading.rotate .west .right = .north

/-- R195 and the codes of R30: the code of each heading and the rotation as arithmetic on the codes (the spec's own decision D9), and
the unit step of each heading (D8). R202 (`[derived]`): four turns one way return to the heading, and so does a turn and its opposite. -/
def Obligations.HeadingCodesStepsAndCycles : Prop :=
  (Heading.code .north = 0 ∧ Heading.code .east = 1 ∧ Heading.code .south = 2 ∧ Heading.code .west = 3) ∧
    (∀ h, Heading.code (Heading.rotate h .left) = (Heading.code h + 3) % 4) ∧
    (∀ h, Heading.code (Heading.rotate h .right) = (Heading.code h + 1) % 4) ∧
    (Heading.dx .north, Heading.dy .north) = (0, -1) ∧ (Heading.dx .east, Heading.dy .east) = (1, 0) ∧
    (Heading.dx .south, Heading.dy .south) = (0, 1) ∧ (Heading.dx .west, Heading.dy .west) = (-1, 0) ∧
    (∀ h d, Heading.rotate (Heading.rotate (Heading.rotate (Heading.rotate h d) d) d) d = h) ∧
    ∀ h d e, d ≠ e → Heading.rotate (Heading.rotate h d) e = h

/-- R203 (`[derived]`): the positions before and after three consecutive (paint, turn) pairs are four distinct cells. -/
def Obligations.FourDistinctPositionsOnThreeMoves : Prop :=
  ∀ (a b c d : Agent) (p1 t1 p2 t2 p3 t3 : Word), a.phase = .paint →
    replay a [p1, t1] = .ok b → replay b [p2, t2] = .ok c → replay c [p3, t3] = .ok d →
    [a.pos, b.pos, c.pos, d.pos].Nodup

/-! ## The step -/

/-- R102 to R104: a step fetches at `ip`, decodes, and runs the decoded instruction; a word that does not decode raises its condition and
the step ends there, with the entry into `Faulted` of R226. The step adds nothing around `exec`. -/
def Obligations.StepRunsTheDecodedInstruction : Prop :=
  ∀ s : State, s.runState = .running →
    (∀ i, decode (s.mem.read s.ip) = .ok i → step s = exec i s) ∧
    (∀ c, decode (s.mem.read s.ip) = .error c →
      step s = .next { s with runState := .faulted, cause := Condition.cause c, faultInfo := Condition.info c })

/-- R101: a step is enabled exactly in `Running`, so every Running state has a next state, and in the other two states no state changes
again. -/
def Obligations.StepEnabledExactlyWhenRunning : Prop :=
  ∀ s : State, ((∃ t, step s = .next t) ↔ s.runState = .running) ∧ (s.runState ≠ .running → ∀ n, run n s = s)

/-- R100: the transitions of the run state (`Faulted` is the spec's own name, D23). A step leaves `Running` alone: to `Halted` exactly when
it decodes Halt, to `Running` or `Faulted` when it decodes another instruction, to `Faulted` when the word does not decode. -/
def Obligations.RunStateTransitions : Prop :=
  ∀ s t : State, step s = .next t →
    s.runState = .running ∧
      ((decode (s.mem.read s.ip) = .ok .halt ∧ t.runState = .halted) ∨
        (∃ i, i ≠ .halt ∧ decode (s.mem.read s.ip) = .ok i ∧ (t.runState = .running ∨ t.runState = .faulted)) ∨
        (∃ c, decode (s.mem.read s.ip) = .error c ∧ t.runState = .faulted))

/-- R226 (the spec's own decision D12): faults are precise. A step that ends in `Faulted` changes the three status fields alone, and
records a cause. -/
def Obligations.FaultsArePrecise : Prop :=
  ∀ s t : State, step s = .next t → t.runState = .faulted →
    t.cause ≠ .none ∧ t = { s with runState := .faulted, cause := t.cause, faultInfo := t.faultInfo }

/-- R107 (`[derived]`): a step performs at most one memory write, at one cell, or one write of `rb`, or one agent transition, and never
two of the three. -/
def Obligations.OneEffectPerStep : Prop :=
  ∀ s t : State, step s = .next t →
    (∀ a b, t.mem.read a ≠ s.mem.read a → t.mem.read b ≠ s.mem.read b → a = b) ∧
      (t.mem ≠ s.mem → t.rb = s.rb ∧ t.agent = s.agent ∧ t.outlog = s.outlog) ∧
      (t.rb ≠ s.rb → t.mem = s.mem ∧ t.agent = s.agent ∧ t.outlog = s.outlog) ∧
      (t.agent ≠ s.agent ∨ t.outlog ≠ s.outlog → t.mem = s.mem ∧ t.rb = s.rb)

/-- R106, R76: where a step that goes on leaves `ip`: past the cells of the instruction, or, for a jump, at the value of its target operand.
That an `ip` outside `Addr` is refused is the spec's own decision D14. -/
def Obligations.NextIpIsPastTheInstructionOrTheTarget : Prop :=
  ∀ (s t : State) (i : Instr), step s = .next t → decode (s.mem.read s.ip) = .ok i → t.runState = .running →
    t.ip.val = s.ip.val + i.length ∨
      ∃ m1 m2 v, (i = .jumpIfTrue m1 m2 ∨ i = .jumpIfFalse m1 m2) ∧ srcOperand s 2 m2 = .ok v ∧ (t.ip.val : Int) = v.val

/-- R181, R27: `rb` is its value at the start plus the operand values of the AdjustRelativeBase instructions executed since, over any
number of steps from any state; no other instruction writes it. -/
def Obligations.RelativeBaseIsSumOfAdjustments : Prop :=
  ∀ (s : State) (n : Nat),
    (run n s).rb.val = s.rb.val + ((List.range n).map fun k => adjustment (run k s)).sum

/-- R25: the phase changes on every Output that raises no condition and on nothing else, and it is `Paint` after reset. -/
def Obligations.PhaseTogglesExactlyOnOutput : Prop :=
  (∀ s t : State, step s = .next t →
    (t.agent.phase ≠ s.agent.phase ↔ t.runState ≠ .faulted ∧ ∃ m, decode (s.mem.read s.ip) = .ok (.output m))) ∧
    ∀ image initInput, (State.resetWith image initInput).agent.phase = .paint

/-- R201 (`[derived]`), R190, R200 (D18): only Output changes the agent's state or the log, and an Output that raises no condition appends
exactly its operand value to the log. -/
def Obligations.OnlyOutputDrivesTheAgent : Prop :=
  ∀ s t : State, step s = .next t →
    (t.agent = s.agent ∧ t.outlog = s.outlog) ∨
      ∃ m v, decode (s.mem.read s.ip) = .ok (.output m) ∧ srcOperand s 1 m = .ok v ∧
        emitOutput s.agent v = .ok t.agent ∧ t.outlog = s.outlog ++ [v]

/-- R197, R32: `nextInputValue()` is `pending`; reset sets it to `init_input`; afterwards only a Turn transition changes it, to the colour
of the agent's new cell. -/
def Obligations.PendingIsWrittenOnlyByTurns : Prop :=
  (∀ a : Agent, nextInputValue a = a.pending) ∧
    (∀ image initInput, (State.resetWith image initInput).agent.pending = initInput) ∧
    ∀ s t : State, step s = .next t → t.agent.pending ≠ s.agent.pending →
      s.agent.phase = .turn ∧ (∃ m, decode (s.mem.read s.ip) = .ok (.output m)) ∧
        t.agent.pending = t.agent.paint.colour t.agent.pos

/-- R198: `paint_count` is the number of distinct coordinates ever painted; a paint of a new cell adds one to it and a re-paint nothing; it
is the block's result when the run ends `Halted`. -/
def Obligations.PaintCountCountsPaintedCells : Prop :=
  ∀ s : State, s.paintCount = s.agent.paint.keys.toFinset.card ∧
    (∀ v : Word, ({ s with agent := Agent.paintTransition s.agent v } : State).paintCount =
      if s.agent.pos ∈ s.agent.paint.keys then s.paintCount else s.paintCount + 1) ∧
    (s.runState = .halted → s.result = some s.paintCount)

/-- R13, R24, R25, R220, R227, R111: what the block reports. The codes of the run states, the causes and the phases; the cause and the
info of each condition (the codes and the infos are the spec's own decision D23); the status outputs, readable in every state; and the
result, the paint count at `Halted` and none before or otherwise (D26). -/
def Obligations.StatusOutputsCodesAndResult : Prop :=
  (RunState.code .running = 0 ∧ RunState.code .halted = 1 ∧ RunState.code .faulted = 2) ∧
    (Cause.code .none = 0 ∧ Cause.code .invalidAddress = 1 ∧ Cause.code .unknownOpcode = 2 ∧
      Cause.code .malformedModeDigit = 3 ∧ Cause.code .arithmeticOverflow = 4 ∧ Cause.code .coordinateOverflow = 5) ∧
    (Phase.code .paint = 0 ∧ Phase.code .turn = 1) ∧
    (∀ (s : State) (n : Int) (w : Word),
      takeFatal (.invalidAddress n) s = { s with runState := .faulted, cause := .invalidAddress, faultInfo := n } ∧
      takeFatal (.unknownOpcode w) s = { s with runState := .faulted, cause := .unknownOpcode, faultInfo := w.val } ∧
      takeFatal (.malformedModeDigit w) s =
        { s with runState := .faulted, cause := .malformedModeDigit, faultInfo := w.val } ∧
      takeFatal (.arithmeticOverflow n) s = { s with runState := .faulted, cause := .arithmeticOverflow, faultInfo := n } ∧
      takeFatal (.coordinateOverflow n) s = { s with runState := .faulted, cause := .coordinateOverflow, faultInfo := n }) ∧
    ∀ s : State,
      s.statusOutputs =
        { runState := RunState.code s.runState
          cause := Cause.code s.cause
          faultInfo := s.faultInfo
          paintCount := s.agent.paint.keys.toFinset.card } ∧
      (s.runState = .halted → s.result = some s.statusOutputs.paintCount) ∧ (s.runState ≠ .halted → s.result = none)

/-- R62: whatever instruction writes the next opcode cell, in any mode, the step goes on to that cell and the very next step fetches and
decodes the word just written. Add, Multiply, LessThan, Equals and Input are all the instructions that write memory (R107). -/
def Obligations.WriteIsSeenByTheNextFetch : Prop :=
  ∀ s : State, s.runState = .running →
    (∀ (m1 m2 m3 : Mode) (a b : Word) (d : Addr), Resolves s m1 m2 m3 a b d → d.val = s.ip.val + 4 →
      (∀ r : Word, decode (s.mem.read s.ip) = .ok (.add m1 m2 m3) → r.val = a.val + b.val → NextFetches s d r) ∧
      (∀ r : Word, decode (s.mem.read s.ip) = .ok (.multiply m1 m2 m3) → r.val = a.val * b.val → NextFetches s d r) ∧
      (decode (s.mem.read s.ip) = .ok (.lessThan m1 m2 m3) → NextFetches s d (if a.val < b.val then .lit 1 else .lit 0)) ∧
      (decode (s.mem.read s.ip) = .ok (.equals m1 m2 m3) → NextFetches s d (if a.val = b.val then .lit 1 else .lit 0))) ∧
    ∀ (m1 : Mode) (d : Addr), dstOperand s 1 m1 = .ok d → d.val = s.ip.val + 2 →
      decode (s.mem.read s.ip) = .ok (.input m1) → NextFetches s d s.agent.pending

/-! ## Runs -/

/-- R109, R110, R111: a run is a function of `image` and `init_input` alone. The states of the run are exactly the states `run n` gives
from their reset, one for each number of steps, so the run has at most one end, and one result. -/
def Obligations.RunIsAFunctionOfImageAndInitInput : Prop :=
  ∀ (image : List Word) (initInput : Word),
    (∀ s, Reachable image initInput s ↔ ∃ n, s = run n (State.resetWith image initInput)) ∧
      ∀ s t, Reachable image initInput s → Reachable image initInput t → s.runState ≠ .running → t.runState ≠ .running →
        s = t ∧ s.result = t.result

/-- R110 (`[derived]`), R160, R161: a jump that is taken to its own address, by either jump and in any modes, steps to the same state,
so it loops for ever. -/
def Obligations.JumpToItselfNeverEnds : Prop :=
  ∀ (s : State) (m1 m2 : Mode) (c g : Word), s.runState = .running → srcOperand s 1 m1 = .ok c → srcOperand s 2 m2 = .ok g →
    g.val = s.ip.val →
    (decode (s.mem.read s.ip) = .ok (.jumpIfTrue m1 m2) ∧ c.val ≠ 0 ∨
      decode (s.mem.read s.ip) = .ok (.jumpIfFalse m1 m2) ∧ c.val = 0) →
    step s = .next s ∧ ∀ n, run n s = s

/-- R35, R200 (the spec's own decision D18): no rule reads `outlog`. Two states that differ at most in it step alike, append the same
words to it, and still differ at most in it; so after any number of steps they report the same status outputs and the same result. -/
def Obligations.OutlogIsNeverRead : Prop :=
  ∀ s u : State, AgreeButOutlog s u →
    (∀ t, step s = .next t → ∃ v, step u = .next v ∧ AgreeButOutlog t v ∧
      ∃ l, t.outlog = s.outlog ++ l ∧ v.outlog = u.outlog ++ l) ∧
    (∀ f, step s = .fault f → step u = .fault f) ∧
    ∀ n, AgreeButOutlog (run n s) (run n u) ∧ (run n s).statusOutputs = (run n u).statusOutputs ∧
      (run n s).result = (run n u).result

/-- R199 (the spec's own decision D16): within the bound of `WithinMoves`, which reset meets and every step keeps, a step raises
`CoordinateOverflow` only as the `2^63`-th move or later. -/
def Obligations.CoordinateOverflowNeedsManyMoves : Prop :=
  ∀ s t : State, WithinMoves s → s.cause = .none → step s = .next t → t.cause = .coordinateOverflow →
    9223372036854775808 ≤ s.outlog.length / 2 + 1

/-! ## Reset -/

/-- R39, R250, R251 (the spec's own decisions D6, D7, D17, D18, D23): reset, in any state, sets every piece of state, and the first step
fetches the image's first word. The clause on `State.reset`, the host's one reset state, is the model's choice of an image and an
`init_input` for it (log entry 5), not the spec's. -/
def Obligations.ResetSetsEveryField : Prop :=
  ∀ (s : State) (image : List Word) (initInput : Word),
    (∀ a : Addr, (s.applyReset image initInput).mem.read a = image.getD a.val Word.zero) ∧
      (s.applyReset image initInput).ip.val = 0 ∧ (s.applyReset image initInput).rb.val = 0 ∧
      (s.applyReset image initInput).runState = .running ∧ (s.applyReset image initInput).cause = .none ∧
      (s.applyReset image initInput).faultInfo = 0 ∧ (s.applyReset image initInput).outlog = [] ∧
      (s.applyReset image initInput).agent.phase = .paint ∧ (s.applyReset image initInput).agent.pos.x.val = 0 ∧
      (s.applyReset image initInput).agent.pos.y.val = 0 ∧ (s.applyReset image initInput).agent.heading = .north ∧
      (s.applyReset image initInput).agent.paint = [] ∧ (s.applyReset image initInput).agent.pending = initInput ∧
      State.reset = State.resetWith [] Word.zero ∧
      ∀ w rest, image = w :: rest → fetchDecode (s.applyReset image initInput) = decode w

/-- Every invariant stated below holds at reset (R39), for every image of legal length (R11) and every `init_input`. The clause
`CanonicalMaps` is the model's own form of the two maps (log entries 1 and 9), not the spec's. -/
def Obligations.ResetMeetsTheInvariants : Prop :=
  ∀ (image : List Word) (initInput : Word), ImageWellFormed image →
    CanonicalMaps (State.resetWith image initInput) ∧ StatusConsistent (State.resetWith image initInput) ∧
      PhaseMatchesOutputs (State.resetWith image initInput) ∧ PaintCountBounded (State.resetWith image initInput) ∧
      WithinMoves (State.resetWith image initInput) ∧ HeadingMatchesMoves (State.resetWith image initInput) ∧
      PendingIsColourHere (State.resetWith image initInput) ∧ AgentFollowsOutlog initInput (State.resetWith image initInput)

/-! ## Invariants every step keeps, from every state -/

/-- Memory and the paint map stay in canonical form (log entries 1 and 9, the model's choice). -/
def Obligations.StepKeepsCanonicalMaps : Prop :=
  ∀ s t : State, CanonicalMaps s → step s = .next t → CanonicalMaps t

/-- R24: `cause` and `fault_info` are set only on entry to `Faulted`. -/
def Obligations.StepKeepsStatusConsistent : Prop :=
  ∀ s t : State, StatusConsistent s → step s = .next t → StatusConsistent t

/-- R201 (`[derived]`): the phase follows the parity of the outputs. -/
def Obligations.StepKeepsPhaseMatchesOutputs : Prop :=
  ∀ s t : State, PhaseMatchesOutputs s → step s = .next t → PhaseMatchesOutputs t

/-- R34 (`[derived]`): `paint_count` never exceeds the number of outputs made in the Paint phase. The conjunct `paint.wf` of the invariant
is the model's own form of the paint map (log entry 9), not the spec's. -/
def Obligations.StepKeepsPaintCountBounded : Prop :=
  ∀ s t : State, PaintCountBounded s → step s = .next t → PaintCountBounded t

/-- R199, R195: the agent is never further from the start than it has made moves. -/
def Obligations.StepKeepsWithinMoves : Prop :=
  ∀ s t : State, WithinMoves s → step s = .next t → WithinMoves t

/-- R203 (`[derived]`): consecutive moves alternate between vertical and horizontal headings. -/
def Obligations.StepKeepsHeadingMatchesMoves : Prop :=
  ∀ s t : State, HeadingMatchesMoves s → step s = .next t → HeadingMatchesMoves t

/-- R36 (`[derived]`), R196: between a move and the next paint the pending input is the colour of the agent's cell. -/
def Obligations.StepKeepsPendingIsColourHere : Prop :=
  ∀ s t : State, PendingIsColourHere s → step s = .next t → PendingIsColourHere t

/-- R190, R191: the agent's state is the replay of the emitted words from its reset state, and nothing else enters it. -/
def Obligations.StepKeepsAgentFollowsOutlog : Prop :=
  ∀ (initInput : Word) (s t : State), AgentFollowsOutlog initInput s → step s = .next t → AgentFollowsOutlog initInput t
end

