-- ==== Sys2Proof/Laws/Checks.lean ====
section
/-! SUPPORT. The range checks of R17, each said once both ways, and how a chain of checks ends. -/

namespace Sys2Proof.Machine

theorem checkAddr_eq_ok {n : Int} {a : Addr} : checkAddr n = .ok a ↔ (a.val : Int) = n := by
  have := a.inAddr
  cases n with
  | ofNat m =>
    simp only [checkAddr, Int.ofNat_eq_natCast, Nat.cast_inj]
    split
    · simp [Addr.ext_iff, eq_comm]
    · simp only [reduceCtorEq, false_iff]; omega
  | negSucc m =>
    simp only [checkAddr, reduceCtorEq, Int.negSucc_eq, false_iff]; omega

theorem checkAddr_eq_error {n : Int} {c : Condition} :
    checkAddr n = .error c ↔ ¬ InAddr n ∧ c = .invalidAddress n := by
  cases n with
  | ofNat m =>
    simp only [checkAddr, InAddr, Int.ofNat_eq_natCast]
    split
    · simp only [reduceCtorEq, false_iff, not_and]; omega
    · simp only [Except.error.injEq, eq_comm (b := c), iff_and_self]; omega
  | negSucc m =>
    simp only [checkAddr, InAddr, Except.error.injEq, eq_comm (b := c), iff_and_self, Int.negSucc_eq]; omega

@[simp] theorem checkAddr_val (a : Addr) : checkAddr (a.val : Int) = .ok a := checkAddr_eq_ok.2 rfl

theorem checkWord_eq_ok {n : Int} {w : Word} : checkWord n = .ok w ↔ w.val = n := by
  unfold checkWord
  split
  · simp [Word.ext_iff, eq_comm]
  · rename_i h
    simp only [reduceCtorEq, false_iff]
    rintro rfl
    exact h (inWord_iff.2 w.inWord)

theorem checkWord_eq_error {n : Int} {c : Condition} :
    checkWord n = .error c ↔ ¬ InWord n ∧ c = .arithmeticOverflow n := by
  rw [checkWord, ← inWord_iff]
  split <;> rename_i h <;> simp [h, eq_comm]

theorem checkCoord_eq_ok {n : Int} {w : Word} : checkCoord n = .ok w ↔ w.val = n := by
  unfold checkCoord
  split
  · simp [Word.ext_iff, eq_comm]
  · rename_i h
    simp only [reduceCtorEq, false_iff]
    rintro rfl
    exact h (inWord_iff.2 w.inWord)

theorem checkCoord_eq_error {n : Int} {c : Condition} :
    checkCoord n = .error c ↔ ¬ InWord n ∧ c = .coordinateOverflow n := by
  rw [checkCoord, ← inWord_iff]
  split <;> rename_i h <;> simp [h, eq_comm]

theorem fallThrough_eq_ok {s : State} {len : Nat} {a : Addr} :
    fallThrough s len = .ok a ↔ a.val = s.ip.val + len := by
  rw [fallThrough, checkAddr_eq_ok]; omega

theorem fallThrough_eq_error {s : State} {len : Nat} {c : Condition} :
    fallThrough s len = .error c ↔
      9223372036854775807 < s.ip.val + len ∧ c = .invalidAddress ((s.ip.val : Int) + len) := by
  rw [fallThrough, checkAddr_eq_error]
  refine and_congr_left fun _ => ?_
  simp only [InAddr]; omega

section Chain
variable {ε α β : Type}

/-- A chain of two checks succeeds exactly when both do. -/
theorem bind_eq_ok {x : Except ε α} {f : α → Except ε β} {b : β} :
    x >>= f = .ok b ↔ ∃ a, x = .ok a ∧ f a = .ok b := by
  cases x <;> simp [bind, Except.bind]

/-- A chain of two checks raises what the first raises, or else what the second raises. -/
theorem bind_eq_error {x : Except ε α} {f : α → Except ε β} {e : ε} :
    x >>= f = .error e ↔ x = .error e ∨ ∃ a, x = .ok a ∧ f a = .error e := by
  cases x <;> simp [bind, Except.bind]

theorem pure_eq_ok {a b : α} : (pure a : Except ε α) = .ok b ↔ a = b := by simp [pure, Except.pure]

theorem pure_ne_error {a : α} {e : ε} : (pure a : Except ε α) ≠ .error e := by simp [pure, Except.pure]

end Chain

end Sys2Proof.Machine
end

