-- ==== Sys2Proof/Laws/Decode.lean ====
section
/-! SUPPORT. The decimal fields of an instruction word, and the ranges of the parameters. -/

namespace Sys2Proof.Laws

/-- R15: `InWord` is the signed two's-complement range of `WORD_BITS` bits. -/
theorem inWord_iff_wordBits (n : Int) :
    InWord n ↔ -(2 ^ (Config.wordBits - 1) : Int) ≤ n ∧ n ≤ 2 ^ (Config.wordBits - 1) - 1 := by
  simp [InWord, Config.wordBits]

/-- The loop of R85 accepts exactly the strings that fit its fuel and hold digits 0 to 2 only. -/
theorem modeDigitsOk_iff {fuel d : Nat} :
    modeDigitsOk fuel d = true ↔ d < 10 ^ fuel ∧ ∀ k, digitAt k d ≤ 2 := by
  induction fuel generalizing d with
  | zero =>
    simp only [modeDigitsOk, beq_iff_eq, pow_zero, Nat.lt_one_iff, digitAt]
    constructor
    · rintro rfl; simp
    · exact And.left
  | succ fuel ih =>
    simp only [modeDigitsOk, Bool.or_eq_true, beq_iff_eq, Bool.and_eq_true, decide_eq_true_eq, ih]
    have shift : ∀ k, digitAt (k + 1) d = digitAt k (d / 10) := fun k => by
      simp only [digitAt, Nat.pow_succ', Nat.div_div_eq_div_mul]
    have bound : d / 10 < 10 ^ fuel ↔ d < 10 ^ (fuel + 1) := by
      rw [Nat.div_lt_iff_lt_mul (by decide), Nat.pow_succ]
    constructor
    · rintro (rfl | ⟨h0, hlt, hk⟩)
      · exact ⟨Nat.pow_pos (by decide), fun k => by simp [digitAt]⟩
      · refine ⟨bound.1 hlt, fun k => ?_⟩
        cases k with
        | zero => simpa [digitAt] using h0
        | succ k => rw [shift]; exact hk k
    · rintro ⟨hlt, hk⟩
      exact .inr ⟨by simpa [digitAt] using hk 0, bound.2 hlt, fun k => by rw [← shift]; exact hk _⟩

/-- A word's mode-digit string fits the decoder's fuel. -/
theorem modeString_lt (w : Word) : w.val.toNat / 100 < 10 ^ modeDigitFuel := by
  have := w.inWord.2
  have h : w.val.toNat ≤ 9223372036854775807 := by omega
  simp only [modeDigitFuel]
  omega

theorem digitAt_div_hundred (k n : Nat) : digitAt k (n / 100) = digitAt (k + 2) n := by
  simp only [digitAt, Nat.div_div_eq_div_mul]
  rw [show 100 * 10 ^ k = 10 ^ (k + 2) by ring]

/-- R83: the digit check of a word looks at every digit above the low two. -/
theorem modeDigitsOk_word (w : Word) :
    modeDigitsOk modeDigitFuel (w.val.toNat / 100) = true ↔ ∀ k, 2 ≤ k → digitAt k w.val.toNat ≤ 2 := by
  rw [modeDigitsOk_iff]
  constructor
  · rintro ⟨-, h⟩ k hk
    obtain ⟨j, rfl⟩ := Nat.exists_eq_add_of_le' hk
    rw [← digitAt_div_hundred]; exact h j
  · intro h
    exact ⟨modeString_lt w, fun k => by rw [digitAt_div_hundred]; exact h _ (by omega)⟩

theorem ofDigit?_digit (m : Mode) : Mode.ofDigit? m.digit = some m := by cases m <;> rfl

/-- R86: an opcode has an operation exactly when it is one of the ten. -/
theorem instrOfOpcode_eq_none {op : Nat} {m1 m2 m3 : Mode} :
    instrOfOpcode op m1 m2 m3 = none ↔ op ∉ [1, 2, 3, 4, 5, 6, 7, 8, 9, 99] := by
  unfold instrOfOpcode
  split <;> simp_all

/-- R72: the operation chosen has the opcode and the first modes given. -/
theorem instrOfOpcode_eq_some {op : Nat} {m1 m2 m3 : Mode} {i : Instr} :
    instrOfOpcode op m1 m2 m3 = some i ↔ i.opcode = op ∧ i.modes = [m1, m2, m3].take i.operandCount := by
  constructor
  · intro h
    unfold instrOfOpcode at h
    split at h <;> first | (cases h; exact ⟨rfl, rfl⟩) | cases h
  · rintro ⟨rfl, h⟩
    cases i <;> simp_all [Instr.modes, Instr.operandCount, instrOfOpcode, Instr.opcode]

theorem modes_length (i : Instr) : i.modes.length = i.operandCount := by cases i <;> rfl

/-- How `decode` ends, in the order of R85. -/
theorem decode_of_neg {w : Word} (h : w.val < 0) : decode w = .error (.unknownOpcode w) := by
  simp only [decode, if_pos h]

theorem decode_of_nonneg {w : Word} (h : 0 ≤ w.val) :
    decode w =
      match instrOfOpcode (w.val.toNat % 100) (modeOf 1 w.val.toNat) (modeOf 2 w.val.toNat) (modeOf 3 w.val.toNat) with
      | none => .error (.unknownOpcode w)
      | some i => if modeDigitsOk modeDigitFuel (w.val.toNat / 100) then .ok i else .error (.malformedModeDigit w) := by
  exact if_neg (not_lt.2 h)

end Sys2Proof.Laws
end

