-- ==== Sys2Proof/Laws/State.lean ====
section
/-! SUPPORT. What each update of the state changes and leaves, field by field, true by unfolding once. -/

namespace Sys2Proof.Machine

variable (c : Condition) (s : State) (image : List Word) (v : Word) (a : Agent)

@[simp] theorem takeFatal_mem : (takeFatal c s).mem = s.mem := rfl
@[simp] theorem takeFatal_ip : (takeFatal c s).ip = s.ip := rfl
@[simp] theorem takeFatal_rb : (takeFatal c s).rb = s.rb := rfl
@[simp] theorem takeFatal_runState : (takeFatal c s).runState = .faulted := rfl
@[simp] theorem takeFatal_cause : (takeFatal c s).cause = Condition.cause c := rfl
@[simp] theorem takeFatal_faultInfo : (takeFatal c s).faultInfo = Condition.info c := rfl
@[simp] theorem takeFatal_agent : (takeFatal c s).agent = s.agent := rfl
@[simp] theorem takeFatal_outlog : (takeFatal c s).outlog = s.outlog := rfl

@[simp] theorem resetWith_mem : (State.resetWith image v).mem = Memory.ofImage image := rfl
@[simp] theorem resetWith_ip : (State.resetWith image v).ip = Config.resetIp := rfl
@[simp] theorem resetWith_rb : (State.resetWith image v).rb = Word.zero := rfl
@[simp] theorem resetWith_runState : (State.resetWith image v).runState = .running := rfl
@[simp] theorem resetWith_cause : (State.resetWith image v).cause = .none := rfl
@[simp] theorem resetWith_faultInfo : (State.resetWith image v).faultInfo = 0 := rfl
@[simp] theorem resetWith_agent : (State.resetWith image v).agent = { Agent.reset with pending := v } := rfl
@[simp] theorem resetWith_outlog : (State.resetWith image v).outlog = [] := rfl

@[simp] theorem paintTransition_phase : (Agent.paintTransition a v).phase = .turn := rfl
@[simp] theorem paintTransition_pos : (Agent.paintTransition a v).pos = a.pos := rfl
@[simp] theorem paintTransition_heading : (Agent.paintTransition a v).heading = a.heading := rfl
@[simp] theorem paintTransition_paint : (Agent.paintTransition a v).paint = a.paint.put a.pos v := rfl
@[simp] theorem paintTransition_pending : (Agent.paintTransition a v).pending = a.pending := rfl

variable (nbits w : Nat)

@[simp] theorem withFetchWord_ip : (s.withFetchWord nbits w).ip = s.ip := rfl
@[simp] theorem withFetchWord_rb : (s.withFetchWord nbits w).rb = s.rb := rfl
@[simp] theorem withFetchWord_runState : (s.withFetchWord nbits w).runState = .running := rfl
@[simp] theorem withFetchWord_agent : (s.withFetchWord nbits w).agent = s.agent := rfl
@[simp] theorem withFetchWord_outlog : (s.withFetchWord nbits w).outlog = s.outlog := rfl
@[simp] theorem withFetchWord_mem :
    (s.withFetchWord nbits w).mem = s.mem.storeCells s.ip.val (tableCells nbits w) := rfl

/-- `cause` of a condition is never `None` (R220). -/
@[simp] theorem Condition.cause_ne_none : Condition.cause c ≠ .none := by cases c <;> simp [Condition.cause]

end Sys2Proof.Machine
end

