-- ==== Sys2Proof/Laws/Maps.lean ====
section
/-! SUPPORT. The finite maps: memory and the paint map. What a read gives after a write, and that every operation keeps the
canonical form. -/

namespace Sys2Proof.Machine

section Assoc
variable {κ β : Type} [DecidableEq κ]

theorem assocFind_erase_self (k : κ) (m : List (κ × β)) : assocFind k (assocErase k m) = none := by
  induction m with
  | nil => rfl
  | cons e rest ih =>
    simp only [assocErase]
    split
    · exact ih
    · rename_i h; simp only [assocFind, if_neg h, ih]

theorem assocFind_erase_other {k j : κ} (h : j ≠ k) (m : List (κ × β)) :
    assocFind j (assocErase k m) = assocFind j m := by
  induction m with
  | nil => rfl
  | cons e rest ih =>
    simp only [assocErase, assocFind]
    split
    · rename_i hk; rw [if_neg (fun hj => h (hj.symm.trans hk)), ih]
    · simp only [assocFind, ih]

theorem assocFind_insert_self (lt : κ → κ → Bool) (k : κ) (v : β) {m : List (κ × β)}
    (hm : assocFind k m = none) : assocFind k (assocInsert lt k v m) = some v := by
  induction m with
  | nil => simp [assocInsert, assocFind]
  | cons e rest ih =>
    simp only [assocFind] at hm
    split at hm
    · cases hm
    · rename_i hne
      simp only [assocInsert]
      split
      · simp [assocFind]
      · simp only [assocFind, if_neg hne, ih hm]

theorem assocFind_insert_other (lt : κ → κ → Bool) {k j : κ} (h : j ≠ k) (v : β) (m : List (κ × β)) :
    assocFind j (assocInsert lt k v m) = assocFind j m := by
  induction m with
  | nil => simp [assocInsert, assocFind, h.symm]
  | cons e rest ih =>
    simp only [assocInsert]
    split
    · simp only [assocFind, if_neg h.symm]
    · simp only [assocFind, ih]

theorem assocFind_put_self (lt : κ → κ → Bool) (k : κ) (v : β) (m : List (κ × β)) :
    assocFind k (assocPut lt k v m) = some v :=
  assocFind_insert_self lt k v (assocFind_erase_self k m)

theorem assocFind_put_other (lt : κ → κ → Bool) {k j : κ} (h : j ≠ k) (v : β) (m : List (κ × β)) :
    assocFind j (assocPut lt k v m) = assocFind j m := by
  rw [assocPut, assocFind_insert_other lt h, assocFind_erase_other h]

theorem mem_assocErase {k : κ} {m : List (κ × β)} {e : κ × β} :
    e ∈ assocErase k m ↔ e ∈ m ∧ e.1 ≠ k := by
  induction m with
  | nil => simp [assocErase]
  | cons f rest ih =>
    simp only [assocErase]
    split
    · rename_i h
      rw [ih, List.mem_cons]
      constructor
      · rintro ⟨hm, hne⟩; exact ⟨.inr hm, hne⟩
      · rintro ⟨rfl | hm, hne⟩
        · exact absurd h hne
        · exact ⟨hm, hne⟩
    · rename_i h
      rw [List.mem_cons, List.mem_cons, ih]
      constructor
      · rintro (rfl | ⟨hm, hne⟩)
        · exact ⟨.inl rfl, h⟩
        · exact ⟨.inr hm, hne⟩
      · rintro ⟨rfl | hm, hne⟩
        · exact .inl rfl
        · exact .inr ⟨hm, hne⟩

theorem mem_assocInsert {lt : κ → κ → Bool} {k : κ} {v : β} {m : List (κ × β)} {e : κ × β} :
    e ∈ assocInsert lt k v m ↔ e = (k, v) ∨ e ∈ m := by
  induction m with
  | nil => simp [assocInsert]
  | cons f rest ih =>
    simp only [assocInsert]
    split
    · simp only [List.mem_cons]
    · simp only [List.mem_cons, ih]; tauto

theorem mem_assocPut {lt : κ → κ → Bool} {k : κ} {v : β} {m : List (κ × β)} {e : κ × β} :
    e ∈ assocPut lt k v m ↔ e = (k, v) ∨ (e ∈ m ∧ e.1 ≠ k) := by
  rw [assocPut, mem_assocInsert, mem_assocErase]

theorem assocErase_pairwise {R : κ × β → κ × β → Prop} (k : κ) {m : List (κ × β)} (h : m.Pairwise R) :
    (assocErase k m).Pairwise R := by
  induction m with
  | nil => exact h
  | cons e rest ih =>
    rw [List.pairwise_cons] at h
    simp only [assocErase]
    split
    · exact ih h.2
    · exact List.pairwise_cons.2 ⟨fun f hf => h.1 f (mem_assocErase.1 hf).1, ih h.2⟩

/-- A strict order on the keys that is total and transitive keeps the list strictly rising. -/
theorem assocPut_pairwise {lt : κ → κ → Bool}
    (trans : ∀ a b c, lt a b = true → lt b c = true → lt a c = true)
    (total : ∀ a b, lt a b = false → b ≠ a → lt b a = true)
    (k : κ) (v : β) {m : List (κ × β)} (h : m.Pairwise (fun e f => lt e.1 f.1 = true)) :
    (assocPut lt k v m).Pairwise (fun e f => lt e.1 f.1 = true) := by
  have step : ∀ {l : List (κ × β)}, l.Pairwise (fun e f => lt e.1 f.1 = true) → (∀ e ∈ l, e.1 ≠ k) →
      (assocInsert lt k v l).Pairwise (fun e f => lt e.1 f.1 = true) := by
    intro l
    induction l with
    | nil => intro _ _; simp [assocInsert]
    | cons e rest ih =>
      intro hp hk
      have hpc := List.pairwise_cons.1 hp
      simp only [assocInsert]
      split
      · rename_i hlt
        refine List.pairwise_cons.2 ⟨fun f hf => ?_, hp⟩
        rcases List.mem_cons.1 hf with rfl | hf
        · exact hlt
        · exact trans _ _ _ hlt (hpc.1 f hf)
      · rename_i hlt
        have hek := hk e (List.mem_cons_self ..)
        refine List.pairwise_cons.2 ⟨fun f hf => ?_, ih hpc.2 fun f hf => hk f (List.mem_cons_of_mem _ hf)⟩
        rcases mem_assocInsert.1 hf with rfl | hf
        · exact total _ _ (by simpa using hlt) hek
        · exact hpc.1 f hf
  exact step (assocErase_pairwise k h) fun e he => (mem_assocErase.1 he).2

theorem assocFind_eq_none {k : κ} {m : List (κ × β)} : assocFind k m = none ↔ ∀ e ∈ m, e.1 ≠ k := by
  induction m with
  | nil => simp [assocFind]
  | cons e rest ih =>
    simp only [assocFind, List.forall_mem_cons]
    split
    · rename_i h; simp [h]
    · rename_i h; simp [h, ih]

end Assoc

/-! ## Memory -/

theorem addrLt_iff {a b : Nat} : addrLt a b = true ↔ a < b := by simp [addrLt]

/-- R51, R52: a read gives the last value written. -/
@[simp] theorem Memory.read_write_same (m : Memory) (a : Addr) (v : Word) : (m.write a v).read a = v := by
  unfold Memory.read Memory.write
  split
  · rename_i h; rw [assocFind_erase_self, h]; rfl
  · rw [assocFind_put_self]; rfl

/-- R52: a write leaves every other cell. -/
theorem Memory.read_write_other (m : Memory) {a b : Addr} (h : b ≠ a) (v : Word) :
    (m.write a v).read b = m.read b := by
  have hv : b.val ≠ a.val := fun e => h (Addr.ext e)
  unfold Memory.read Memory.write
  split
  · rw [assocFind_erase_other hv]
  · rw [assocFind_put_other _ hv]

theorem Memory.write_wf {m : Memory} (a : Addr) (v : Word) (h : m.wf) : (m.write a v).wf := by
  obtain ⟨hp, hv⟩ := h
  unfold Memory.write
  split
  · exact ⟨assocErase_pairwise _ hp, fun e he => hv e (mem_assocErase.1 he).1⟩
  · rename_i hne
    refine ⟨?_, fun e he => ?_⟩
    · have hp' : m.Pairwise (fun e f => addrLt e.1 f.1 = true) := hp.imp fun h => addrLt_iff.2 h
      refine (assocPut_pairwise (lt := addrLt) ?_ ?_ a.val v hp').imp fun h => addrLt_iff.1 h
      · intro a b c; simp only [addrLt_iff]; omega
      · intro a b; simp only [addrLt, decide_eq_false_iff_not, decide_eq_true_eq]; omega
    · rcases mem_assocPut.1 he with rfl | ⟨he, -⟩
      · exact ⟨a.inAddr, hne⟩
      · exact hv e he

theorem Memory.storeCells_wf {m : Memory} (a : Nat) (ws : List Word) (h : m.wf) : (m.storeCells a ws).wf := by
  induction ws generalizing m a with
  | nil => exact h
  | cons w ws ih =>
    simp only [Memory.storeCells]
    split
    · exact ih _ (Memory.write_wf _ _ h)
    · exact h

/-- Consecutive cells written from `a` on leave every cell below `a`. -/
theorem Memory.read_storeCells_below (m : Memory) {a : Nat} (ws : List Word) {b : Addr} (h : b.val < a) :
    (m.storeCells a ws).read b = m.read b := by
  induction ws generalizing m a with
  | nil => rfl
  | cons w ws ih =>
    simp only [Memory.storeCells]
    split
    · rw [ih _ (by omega), Memory.read_write_other]
      rintro rfl; exact absurd h (Nat.lt_irrefl _)
    · rfl

theorem Memory.mem_ofCells {a : Nat} {ws : List Word} {e : Nat × Word} (he : e ∈ Memory.ofCells a ws) :
    a ≤ e.1 ∧ e.1 < a + ws.length ∧ e.2 ≠ Memory.unlisted := by
  induction ws generalizing a with
  | nil => cases he
  | cons w ws ih =>
    simp only [Memory.ofCells] at he
    split at he
    · have := ih he; exact ⟨by omega, by simp only [List.length_cons]; omega, this.2.2⟩
    · rename_i hw
      rcases List.mem_cons.1 he with rfl | he
      · exact ⟨Nat.le_refl _, by simp, hw⟩
      · have := ih he; exact ⟨by omega, by simp only [List.length_cons]; omega, this.2.2⟩

theorem Memory.ofCells_pairwise (a : Nat) (ws : List Word) :
    (Memory.ofCells a ws).Pairwise (fun e f => e.1 < f.1) := by
  induction ws generalizing a with
  | nil => exact List.Pairwise.nil
  | cons w ws ih =>
    simp only [Memory.ofCells]
    split
    · exact ih _
    · exact List.pairwise_cons.2 ⟨fun f hf => (Memory.mem_ofCells hf).1, ih _⟩

/-- R11, R250: the memory of an image of legal length is canonical. -/
theorem Memory.ofImage_wf {image : List Word} (h : ImageWellFormed image) : (Memory.ofImage image).wf := by
  refine ⟨Memory.ofCells_pairwise 0 image, fun e he => ?_⟩
  have := Memory.mem_ofCells he
  simp only [ImageWellFormed, Config.maxImageLength] at h
  exact ⟨by omega, this.2.2⟩

theorem Memory.find_ofCells (a k : Nat) (ws : List Word) :
    (assocFind (a + k) (Memory.ofCells a ws)).getD Memory.unlisted = ws.getD k Memory.unlisted := by
  induction ws generalizing a k with
  | nil => rfl
  | cons w ws ih =>
    cases k with
    | zero =>
      simp only [Memory.ofCells, List.getD_cons_zero, Nat.add_zero]
      split
      · rename_i hw
        have : assocFind a (Memory.ofCells (a + 1) ws) = none :=
          assocFind_eq_none.2 fun e he => by have := Memory.mem_ofCells he; omega
        rw [this, hw]; rfl
      · simp [assocFind]
    | succ k =>
      have hk := ih (a + 1) k
      rw [show a + 1 + k = a + (k + 1) by omega] at hk
      rw [List.getD_cons_succ, ← hk]
      simp only [Memory.ofCells]
      split
      · rfl
      · simp only [assocFind]
        rw [if_neg (by omega)]

/-- R33: memory at reset reads as the image, and 0 past it. -/
theorem Memory.read_ofImage (image : List Word) (a : Addr) :
    (Memory.ofImage image).read a = image.getD a.val Memory.unlisted := by
  have := Memory.find_ofCells 0 a.val image
  rwa [Nat.zero_add] at this

/-! ## The paint map -/

theorem coordLt_iff {p q : Coord} :
    coordLt p q = true ↔ p.x.val < q.x.val ∨ (p.x.val = q.x.val ∧ p.y.val < q.y.val) := by simp [coordLt]

theorem coord_ext_iff {p q : Coord} : p = q ↔ p.x.val = q.x.val ∧ p.y.val = q.y.val := by
  rw [Coord.ext_iff, Word.ext_iff, Word.ext_iff]

/-- R192: the cell just painted has the colour painted. -/
@[simp] theorem PaintMap.colour_put_same (m : PaintMap) (p : Coord) (v : Word) : (m.put p v).colour p = v := by
  unfold PaintMap.colour PaintMap.put; rw [assocFind_put_self]; rfl

/-- R192: every other cell keeps its colour. -/
theorem PaintMap.colour_put_other (m : PaintMap) {p q : Coord} (h : q ≠ p) (v : Word) :
    (m.put p v).colour q = m.colour q := by
  unfold PaintMap.colour PaintMap.put; rw [assocFind_put_other _ h]

theorem PaintMap.put_wf {m : PaintMap} (p : Coord) (v : Word) (h : m.wf) : (m.put p v).wf := by
  refine assocPut_pairwise ?_ ?_ p v h
  · intro a b c; simp only [coordLt_iff]; omega
  · intro a b hab hne
    have hne' : ¬ (b.x.val = a.x.val ∧ b.y.val = a.y.val) := fun h => hne (coord_ext_iff.2 h)
    have hab' : ¬ (a.x.val < b.x.val ∨ (a.x.val = b.x.val ∧ a.y.val < b.y.val)) := by
      rw [← coordLt_iff, hab]; exact Bool.false_ne_true
    rw [coordLt_iff]; omega

/-- R31: the keys after a paint are the keys before and the painted cell. -/
theorem PaintMap.mem_keys_put {m : PaintMap} {p q : Coord} {v : Word} :
    q ∈ (m.put p v).keys ↔ q = p ∨ q ∈ m.keys := by
  simp only [PaintMap.keys, List.mem_map, PaintMap.put, mem_assocPut]
  constructor
  · rintro ⟨e, rfl | ⟨he, -⟩, rfl⟩
    · exact .inl rfl
    · exact .inr ⟨e, he, rfl⟩
  · rintro (rfl | ⟨e, he, rfl⟩)
    · exact ⟨_, .inl rfl, rfl⟩
    · by_cases h : e.1 = p
      · exact ⟨(p, v), .inl rfl, h.symm⟩
      · exact ⟨e, .inr ⟨he, h⟩, rfl⟩

/-- A canonical paint map has no key twice. -/
theorem PaintMap.keys_nodup {m : PaintMap} (h : m.wf) : m.keys.Nodup := by
  refine List.pairwise_map.2 (h.imp fun {e f} hlt heq => ?_)
  rw [coordLt_iff, heq] at hlt; omega

end Sys2Proof.Machine
end

