-- ==== Sys2Proof/Laws/Operands.lean ====
section
/-! SUPPORT. Operand resolution, said once for each mode (R77, R78). -/

namespace Sys2Proof.Machine

variable {s : State} {k : Nat}

theorem rawOperand_eq_ok {raw : Word} :
    rawOperand s k = .ok raw ↔ ∃ a : Addr, a.val = s.ip.val + k ∧ s.mem.read a = raw := by
  simp only [rawOperand, bind_eq_ok, checkAddr_eq_ok, pure_eq_ok]
  exact exists_congr fun a => and_congr_left fun _ => by omega

theorem rawOperand_eq_error {c : Condition} :
    rawOperand s k = .error c ↔
      9223372036854775807 < s.ip.val + k ∧ c = .invalidAddress ((s.ip.val : Int) + k) := by
  simp only [rawOperand, bind_eq_error, checkAddr_eq_error, pure_ne_error, and_false, exists_false, or_false]
  refine and_congr_left fun _ => ?_
  simp only [InAddr]; omega

/-- R77, Position. -/
theorem srcOperand_position {raw : Word} (h : rawOperand s k = .ok raw) :
    srcOperand s k .position = (checkAddr raw.val).map s.mem.read := by
  simp only [srcOperand, h, bind, Except.bind]
  cases checkAddr raw.val <;> rfl

/-- R77, Immediate. -/
theorem srcOperand_immediate {raw : Word} (h : rawOperand s k = .ok raw) :
    srcOperand s k .immediate = .ok raw := by
  simp only [srcOperand, h, bind, Except.bind]; rfl

/-- R77, Relative. -/
theorem srcOperand_relative {raw : Word} (h : rawOperand s k = .ok raw) :
    srcOperand s k .relative = (checkAddr (raw.val + s.rb.val)).map s.mem.read := by
  simp only [srcOperand, h, bind, Except.bind]
  cases checkAddr (raw.val + s.rb.val) <;> rfl

/-- R228: the operand-cell address is checked first, in every mode. -/
theorem srcOperand_of_raw_error {c : Condition} (h : rawOperand s k = .error c) (m : Mode) :
    srcOperand s k m = .error c := by
  simp only [srcOperand, h, bind, Except.bind]

theorem dstOperand_of_raw_error {c : Condition} (h : rawOperand s k = .error c) (m : Mode) :
    dstOperand s k m = .error c := by
  simp only [dstOperand, h, bind, Except.bind]

/-- R78, R79: Position and Immediate. -/
theorem dstOperand_position {raw : Word} (h : rawOperand s k = .ok raw) :
    dstOperand s k .position = checkAddr raw.val := by
  simp only [dstOperand, h, bind, Except.bind]

theorem dstOperand_immediate {raw : Word} (h : rawOperand s k = .ok raw) :
    dstOperand s k .immediate = checkAddr raw.val := by
  simp only [dstOperand, h, bind, Except.bind]

/-- R78: Relative. -/
theorem dstOperand_relative {raw : Word} (h : rawOperand s k = .ok raw) :
    dstOperand s k .relative = checkAddr (raw.val + s.rb.val) := by
  simp only [dstOperand, h, bind, Except.bind]

/-- R221: the only condition operand resolution raises is `InvalidAddress`, with the index that is no `Addr`. -/
theorem srcOperand_error {m : Mode} {c : Condition} (h : srcOperand s k m = .error c) :
    ∃ n, ¬ InAddr n ∧ c = .invalidAddress n := by
  cases hr : rawOperand s k with
  | error e =>
    rw [srcOperand_of_raw_error hr] at h
    cases h
    obtain ⟨hlt, rfl⟩ := rawOperand_eq_error.1 hr
    exact ⟨_, by simp only [InAddr]; omega, rfl⟩
  | ok raw =>
    cases m with
    | immediate => rw [srcOperand_immediate hr] at h; cases h
    | position =>
      rw [srcOperand_position hr] at h
      cases hc : checkAddr raw.val with
      | ok a => rw [hc] at h; cases h
      | error e => rw [hc] at h; cases h; exact ⟨_, checkAddr_eq_error.1 hc⟩
    | relative =>
      rw [srcOperand_relative hr] at h
      cases hc : checkAddr (raw.val + s.rb.val) with
      | ok a => rw [hc] at h; cases h
      | error e => rw [hc] at h; cases h; exact ⟨_, checkAddr_eq_error.1 hc⟩

theorem dstOperand_error {m : Mode} {c : Condition} (h : dstOperand s k m = .error c) :
    ∃ n, ¬ InAddr n ∧ c = .invalidAddress n := by
  cases hr : rawOperand s k with
  | error e =>
    rw [dstOperand_of_raw_error hr] at h
    cases h
    obtain ⟨hlt, rfl⟩ := rawOperand_eq_error.1 hr
    exact ⟨_, by simp only [InAddr]; omega, rfl⟩
  | ok raw =>
    cases m with
    | position => rw [dstOperand_position hr] at h; exact ⟨_, checkAddr_eq_error.1 h⟩
    | immediate => rw [dstOperand_immediate hr] at h; exact ⟨_, checkAddr_eq_error.1 h⟩
    | relative => rw [dstOperand_relative hr] at h; exact ⟨_, checkAddr_eq_error.1 h⟩

end Sys2Proof.Machine
end

