-- ==== Sys2Proof/Laws/PerInstr.lean ====
section
/-! SUPPORT. Facts said of each constructor of `Instr`. The family `Encoding`: the decimal fields of an instruction's opcode cell are
its opcode and its modes, and its absent mode digits are 0. -/

namespace Sys2Proof.Laws

def Encoding.Statement (i : Instr) : Prop :=
  encodeNat i % 100 = i.opcode ∧
    modeDigitsOk modeDigitFuel (encodeNat i / 100) = true ∧
    [modeOf 1 (encodeNat i), modeOf 2 (encodeNat i), modeOf 3 (encodeNat i)] =
      i.modes ++ List.replicate (3 - i.operandCount) Mode.position

theorem Encoding.add (m1 m2 m3 : Mode) : Encoding.Statement (.add m1 m2 m3) := by
  cases m1 <;> cases m2 <;> cases m3 <;> exact ⟨by decide, by decide, by decide⟩

theorem Encoding.multiply (m1 m2 m3 : Mode) : Encoding.Statement (.multiply m1 m2 m3) := by
  cases m1 <;> cases m2 <;> cases m3 <;> exact ⟨by decide, by decide, by decide⟩

theorem Encoding.input (m1 : Mode) : Encoding.Statement (.input m1) := by
  cases m1 <;> exact ⟨by decide, by decide, by decide⟩

theorem Encoding.output (m1 : Mode) : Encoding.Statement (.output m1) := by
  cases m1 <;> exact ⟨by decide, by decide, by decide⟩

theorem Encoding.jumpIfTrue (m1 m2 : Mode) : Encoding.Statement (.jumpIfTrue m1 m2) := by
  cases m1 <;> cases m2 <;> exact ⟨by decide, by decide, by decide⟩

theorem Encoding.jumpIfFalse (m1 m2 : Mode) : Encoding.Statement (.jumpIfFalse m1 m2) := by
  cases m1 <;> cases m2 <;> exact ⟨by decide, by decide, by decide⟩

theorem Encoding.lessThan (m1 m2 m3 : Mode) : Encoding.Statement (.lessThan m1 m2 m3) := by
  cases m1 <;> cases m2 <;> cases m3 <;> exact ⟨by decide, by decide, by decide⟩

theorem Encoding.equals (m1 m2 m3 : Mode) : Encoding.Statement (.equals m1 m2 m3) := by
  cases m1 <;> cases m2 <;> cases m3 <;> exact ⟨by decide, by decide, by decide⟩

theorem Encoding.adjustRelativeBase (m1 : Mode) : Encoding.Statement (.adjustRelativeBase m1) := by
  cases m1 <;> exact ⟨by decide, by decide, by decide⟩

theorem Encoding.halt : Encoding.Statement .halt := ⟨by decide, by decide, by decide⟩

end Sys2Proof.Laws
end

