-- ==== Sys2Proof/Laws/Step.lean ====
section
/-! SUPPORT. What an instruction and a step can do, said once: each shape's result inverted, then `exec`, then `step`. -/

namespace Sys2Proof.Machine

variable {s t : State}

theorem commit_eq_next {r : Except Condition State} :
    commit s r = .next t ↔ r = .ok t ∨ ∃ c, r = .error c ∧ t = takeFatal c s := by
  cases r <;> simp [commit, eq_comm]

/-- R107: the shape of Add, Multiply, LessThan and Equals makes one write and moves `ip`. -/
theorem binaryResult_eq_ok {f : Word → Word → Except Condition Word} {m1 m2 m3 : Mode} :
    binaryResult f m1 m2 m3 s = .ok t ↔
      ∃ a b d r n, srcOperand s 1 m1 = .ok a ∧ srcOperand s 2 m2 = .ok b ∧ dstOperand s 3 m3 = .ok d ∧ f a b = .ok r ∧
        fallThrough s 4 = .ok n ∧ t = { s with mem := s.mem.write d r, ip := n } := by
  simp only [binaryResult, bind_eq_ok, pure_eq_ok]
  constructor
  · rintro ⟨a, ha, b, hb, d, hd, r, hr, n, hn, rfl⟩; exact ⟨a, b, d, r, n, ha, hb, hd, hr, hn, rfl⟩
  · rintro ⟨a, b, d, r, n, ha, hb, hd, hr, hn, rfl⟩; exact ⟨a, ha, b, hb, d, hd, r, hr, n, hn, rfl⟩

theorem inputResult_eq_ok {m1 : Mode} :
    inputResult m1 s = .ok t ↔
      ∃ d n, dstOperand s 1 m1 = .ok d ∧ fallThrough s 2 = .ok n ∧
        t = { s with mem := s.mem.write d s.agent.pending, ip := n } := by
  simp only [inputResult, nextInputValue, bind_eq_ok, pure_eq_ok]
  constructor
  · rintro ⟨d, hd, n, hn, rfl⟩; exact ⟨d, n, hd, hn, rfl⟩
  · rintro ⟨d, n, hd, hn, rfl⟩; exact ⟨d, hd, n, hn, rfl⟩

theorem outputResult_eq_ok {m1 : Mode} :
    outputResult m1 s = .ok t ↔
      ∃ v n a, srcOperand s 1 m1 = .ok v ∧ fallThrough s 2 = .ok n ∧ emitOutput s.agent v = .ok a ∧
        t = { s with agent := a, outlog := s.outlog ++ [v], ip := n } := by
  simp only [outputResult, bind_eq_ok, pure_eq_ok]
  constructor
  · rintro ⟨v, hv, n, hn, a, ha, rfl⟩; exact ⟨v, n, a, hv, hn, ha, rfl⟩
  · rintro ⟨v, n, a, hv, hn, ha, rfl⟩; exact ⟨v, hv, n, hn, a, ha, rfl⟩

theorem jumpResult_eq_ok {taken : Word → Bool} {m1 m2 : Mode} :
    jumpResult taken m1 m2 s = .ok t ↔
      ∃ c g n, srcOperand s 1 m1 = .ok c ∧ srcOperand s 2 m2 = .ok g ∧
        jumpNext (taken c) g s = .ok n ∧ t = { s with ip := n } := by
  simp only [jumpResult, bind_eq_ok, pure_eq_ok]
  constructor
  · rintro ⟨c, hc, g, hg, n, hn, rfl⟩; exact ⟨c, g, n, hc, hg, hn, rfl⟩
  · rintro ⟨c, g, n, hc, hg, hn, rfl⟩; exact ⟨c, hc, g, hg, n, hn, rfl⟩

theorem adjustRelativeBaseResult_eq_ok {m1 : Mode} :
    adjustRelativeBaseResult m1 s = .ok t ↔
      ∃ v r n, srcOperand s 1 m1 = .ok v ∧ r.val = s.rb.val + v.val ∧ fallThrough s 2 = .ok n ∧
        t = { s with rb := r, ip := n } := by
  simp only [adjustRelativeBaseResult, bind_eq_ok, pure_eq_ok, checkWord_eq_ok]
  constructor
  · rintro ⟨v, hv, r, hr, n, hn, rfl⟩; exact ⟨v, r, n, hv, hr, hn, rfl⟩
  · rintro ⟨v, r, n, hv, hr, hn, rfl⟩; exact ⟨v, hv, r, hr, n, hn, rfl⟩

/-! What each shape raises, in the order of R228. -/

theorem binaryResult_eq_error {f : Word → Word → Except Condition Word} {m1 m2 m3 : Mode} {e : Condition} :
    binaryResult f m1 m2 m3 s = .error e ↔
      srcOperand s 1 m1 = .error e ∨ ∃ a, srcOperand s 1 m1 = .ok a ∧
        (srcOperand s 2 m2 = .error e ∨ ∃ b, srcOperand s 2 m2 = .ok b ∧
          (dstOperand s 3 m3 = .error e ∨ ∃ d, dstOperand s 3 m3 = .ok d ∧
            (f a b = .error e ∨ ∃ r, f a b = .ok r ∧ fallThrough s 4 = .error e))) := by
  simp only [binaryResult, bind_eq_error, pure_ne_error, and_false, exists_false, or_false]

theorem inputResult_eq_error {m1 : Mode} {e : Condition} :
    inputResult m1 s = .error e ↔
      dstOperand s 1 m1 = .error e ∨ ∃ d, dstOperand s 1 m1 = .ok d ∧ fallThrough s 2 = .error e := by
  simp only [inputResult, bind_eq_error, pure_ne_error, and_false, exists_false, or_false]

theorem outputResult_eq_error {m1 : Mode} {e : Condition} :
    outputResult m1 s = .error e ↔
      srcOperand s 1 m1 = .error e ∨ ∃ v, srcOperand s 1 m1 = .ok v ∧
        (fallThrough s 2 = .error e ∨ ∃ n, fallThrough s 2 = .ok n ∧ emitOutput s.agent v = .error e) := by
  simp only [outputResult, bind_eq_error, pure_ne_error, and_false, exists_false, or_false]

theorem jumpResult_eq_error {taken : Word → Bool} {m1 m2 : Mode} {e : Condition} :
    jumpResult taken m1 m2 s = .error e ↔
      srcOperand s 1 m1 = .error e ∨ ∃ c, srcOperand s 1 m1 = .ok c ∧
        (srcOperand s 2 m2 = .error e ∨ ∃ g, srcOperand s 2 m2 = .ok g ∧ jumpNext (taken c) g s = .error e) := by
  simp only [jumpResult, bind_eq_error, pure_ne_error, and_false, exists_false, or_false]

theorem adjustRelativeBaseResult_eq_error {m1 : Mode} {e : Condition} :
    adjustRelativeBaseResult m1 s = .error e ↔
      srcOperand s 1 m1 = .error e ∨ ∃ v, srcOperand s 1 m1 = .ok v ∧
        (checkWord (s.rb.val + v.val) = .error e ∨ ∃ r, checkWord (s.rb.val + v.val) = .ok r ∧ fallThrough s 2 = .error e) := by
  simp only [adjustRelativeBaseResult, bind_eq_error, pure_ne_error, and_false, exists_false, or_false]

/-- An instruction's effects, or the condition it raises, before the commit. -/
def instrResult : Instr → State → Except Condition State
  | .add m1 m2 m3, s => binaryResult addWords m1 m2 m3 s
  | .multiply m1 m2 m3, s => binaryResult multiplyWords m1 m2 m3 s
  | .input m1, s => inputResult m1 s
  | .output m1, s => outputResult m1 s
  | .jumpIfTrue m1 m2, s => jumpResult wordNonzero m1 m2 s
  | .jumpIfFalse m1 m2, s => jumpResult (fun c => !wordNonzero c) m1 m2 s
  | .lessThan m1 m2 m3, s => binaryResult lessThanWords m1 m2 m3 s
  | .equals m1 m2 m3, s => binaryResult equalsWords m1 m2 m3 s
  | .adjustRelativeBase m1, s => adjustRelativeBaseResult m1 s
  | .halt, s => .ok { s with runState := .halted }

/-- R107, R226: an instruction commits its effects or takes the condition it raises. -/
theorem exec_eq_commit (i : Instr) (s : State) : exec i s = commit s (instrResult i s) := by cases i <;> rfl

theorem exec_eq_next {i : Instr} :
    exec i s = .next t ↔ instrResult i s = .ok t ∨ ∃ c, instrResult i s = .error c ∧ t = takeFatal c s := by
  rw [exec_eq_commit, commit_eq_next]

/-- R107: an instruction that raises nothing does one of these five things. -/
theorem instrResult_cases {i : Instr} (h : instrResult i s = .ok t) :
    (∃ d v n, t = { s with mem := s.mem.write d v, ip := n }) ∨
      (∃ m r n, i = .adjustRelativeBase m ∧ t = { s with rb := r, ip := n }) ∨
      (∃ m v n a, i = .output m ∧ emitOutput s.agent v = .ok a ∧
        t = { s with agent := a, outlog := s.outlog ++ [v], ip := n }) ∨
      (∃ n, t = { s with ip := n }) ∨ (i = .halt ∧ t = { s with runState := .halted }) := by
  cases i with
  | add | multiply | lessThan | equals =>
    obtain ⟨a, b, d, r, n, -, -, -, -, -, rfl⟩ := binaryResult_eq_ok.1 h
    exact .inl ⟨d, r, n, rfl⟩
  | input =>
    obtain ⟨d, n, -, -, rfl⟩ := inputResult_eq_ok.1 h
    exact .inl ⟨d, _, n, rfl⟩
  | output m =>
    obtain ⟨v, n, a, -, -, ha, rfl⟩ := outputResult_eq_ok.1 h
    exact .inr (.inr (.inl ⟨m, v, n, a, rfl, ha, rfl⟩))
  | jumpIfTrue | jumpIfFalse =>
    obtain ⟨c, g, n, -, -, -, rfl⟩ := jumpResult_eq_ok.1 h
    exact .inr (.inr (.inr (.inl ⟨n, rfl⟩)))
  | adjustRelativeBase m =>
    obtain ⟨v, r, n, -, -, -, rfl⟩ := adjustRelativeBaseResult_eq_ok.1 h
    exact .inr (.inl ⟨m, r, n, rfl, rfl⟩)
  | halt =>
    cases h
    exact .inr (.inr (.inr (.inr ⟨rfl, rfl⟩)))

/-- R108: what a step that has a next state did. -/
theorem step_eq_next :
    step s = .next t ↔ s.runState = .running ∧
      ((∃ i, fetchDecode s = .ok i ∧ instrResult i s = .ok t) ∨
        (∃ c, fetchDecode s = .error c ∧ t = takeFatal c s) ∨
        ∃ i c, fetchDecode s = .ok i ∧ instrResult i s = .error c ∧ t = takeFatal c s) := by
  unfold step
  cases hr : s.runState with
  | running =>
    cases hf : fetchDecode s with
    | ok i => simp [exec_eq_next]
    | error c => simp [eq_comm]
  | halted => simp
  | faulted => simp

theorem running_of_step (h : step s = .next t) : s.runState = .running := (step_eq_next.1 h).1

/-- A step takes a fatal condition or commits the effects of the instruction it decodes. -/
theorem step_cases (h : step s = .next t) :
    (∃ c, t = takeFatal c s) ∨ ∃ i, fetchDecode s = .ok i ∧ instrResult i s = .ok t := by
  rcases (step_eq_next.1 h).2 with ⟨i, h1, h2⟩ | ⟨c, -, rfl⟩ | ⟨i, c, -, -, rfl⟩
  · exact .inr ⟨i, h1, h2⟩
  · exact .inl ⟨c, rfl⟩
  · exact .inl ⟨c, rfl⟩

/-! ## The agent's transitions -/

theorem move_eq_ok {p q : Coord} {h : Heading} :
    Coord.move p h = .ok q ↔ q.x.val = p.x.val + Heading.dx h ∧ q.y.val = p.y.val + Heading.dy h := by
  simp only [Coord.move, bind_eq_ok, pure_eq_ok, checkCoord_eq_ok]
  constructor
  · rintro ⟨x, hx, y, hy, rfl⟩; exact ⟨hx, hy⟩
  · rintro ⟨hx, hy⟩; exact ⟨q.x, hx, q.y, hy, rfl⟩

/-- R204: the two transitions. -/
theorem emitOutput_eq_ok {a b : Agent} {v : Word} :
    emitOutput a v = .ok b ↔
      (a.phase = .paint ∧ b = Agent.paintTransition a v) ∨
        (a.phase = .turn ∧ ∃ p, Coord.move a.pos (Heading.rotate a.heading (turnDir v)) = .ok p ∧
          b = { a with
            heading := Heading.rotate a.heading (turnDir v), pos := p, pending := a.paint.colour p, phase := .paint }) := by
  unfold emitOutput
  cases hp : a.phase with
  | paint =>
    simp only [pure_eq_ok, true_and, reduceCtorEq, false_and, or_false]
    exact eq_comm
  | turn =>
    simp only [Agent.turnTransition, bind_eq_ok, pure_eq_ok, reduceCtorEq, false_and, true_and, false_or]
    exact exists_congr fun p => and_congr_right fun _ => eq_comm

end Sys2Proof.Machine
end

