-- ==== Sys2Proof/Laws/Runs.lean ====
section
/-! SUPPORT. Runs, one step at a time, from either end; and what does not look at `outlog`. -/

namespace Sys2Proof.Safety

open Sys2Proof.Machine

variable {s t : State}

theorem run_of_step (h : step s = .next t) (n : Nat) : run (n + 1) s = run n t := by simp only [run, h]

/-- Where a state has no next state, no number of steps changes anything. -/
theorem run_of_no_step (h : ∀ t, step s ≠ .next t) (n : Nat) : run n s = s := by
  cases n with
  | zero => rfl
  | succ n =>
    unfold run
    split
    · exact absurd ‹_› (h _)
    · rfl
    · rfl

theorem run_of_not_running (h : s.runState ≠ .running) (n : Nat) : run n s = s :=
  run_of_no_step (fun _ hs => h (running_of_step hs)) n

/-- A run of `m + n` steps is `n` steps after `m`. -/
theorem run_add (m n : Nat) (s : State) : run (m + n) s = run n (run m s) := by
  induction m generalizing s with
  | zero => rw [Nat.zero_add, run]
  | succ m ih =>
    by_cases h : ∃ t, step s = .next t
    · obtain ⟨t, h⟩ := h
      rw [Nat.add_right_comm, run_of_step h, run_of_step h, ih]
    · rw [not_exists] at h
      simp only [run_of_no_step h]

variable (l : List Word) (k : Nat) (m : Mode)

/-! R35: nothing a step reads looks at `outlog`. -/

@[simp] theorem fetchDecode_outlog : fetchDecode { s with outlog := l } = fetchDecode s := rfl
@[simp] theorem srcOperand_outlog : srcOperand { s with outlog := l } k m = srcOperand s k m := rfl
@[simp] theorem dstOperand_outlog : dstOperand { s with outlog := l } k m = dstOperand s k m := rfl
@[simp] theorem fallThrough_outlog : fallThrough { s with outlog := l } k = fallThrough s k := rfl
@[simp] theorem jumpNext_outlog (b : Bool) (v : Word) : jumpNext b v { s with outlog := l } = jumpNext b v s := rfl

end Sys2Proof.Safety
end

