-- ==== Sys2Proof/Tests/Slice0.lean ====
section
/-! SUPPORT. The model's own tests, and a witness for the hypotheses of every statement that has some. Expected results come from
spec/95_test_vectors.md (the section is named) or are worked by hand from the rules. -/

namespace Sys2Proof.Tests

open Sys2Proof.Machine Sys2Proof.Safety

/-- Reset with an image and the default input. -/
def boot (image : List Word) : State := State.resetWith image Word.zero

/-- The next state of one step, if there is one. -/
def next (s : State) : Option State :=
  match step s with
  | .next t => some t
  | .fault _ => none
  | .refused _ => none

/-- One field of the next state. -/
def after {α : Type} (s : State) (f : State → α) : Option α := (next s).map f

/-- The status fields of the next state. -/
def status (s : State) : Option (RunState × Cause × Int × Nat) :=
  after s fun t => (t.runState, t.cause, t.faultInfo, t.ip.val)

/-! ## Well-formedness: a term each check refuses -/

theorem test_line_with_too_few_cells_is_ill_formed :
    ¬ CodeLine.WellFormed ⟨.add .immediate .immediate .position, [.lit 100, .lit (-1)]⟩ := by decide

theorem test_line_with_too_many_cells_is_ill_formed : ¬ CodeLine.WellFormed ⟨.halt, [.lit 0]⟩ := by decide

theorem test_image_too_long_is_ill_formed : ¬ ImageWellFormed (List.replicate 9223372036854775809 Word.zero) := by
  rw [ImageWellFormed, List.length_replicate]; decide

/-! ## Decoding: words written out from the encoding (R71), 95 section 2.1 -/

theorem test_decode_three_operands :
    decode (.lit 1101) = .ok (.add .immediate .immediate .position) ∧
      decode (.lit 2) = .ok (.multiply .position .position .position) ∧
      decode (.lit 21107) = .ok (.lessThan .immediate .immediate .relative) ∧
      decode (.lit 22208) = .ok (.equals .relative .relative .relative) := by decide

theorem test_decode_fewer_operands :
    decode (.lit 203) = .ok (.input .relative) ∧ decode (.lit 1104) = .ok (.output .immediate) ∧
      decode (.lit 1105) = .ok (.jumpIfTrue .immediate .immediate) ∧
      decode (.lit 1206) = .ok (.jumpIfFalse .relative .immediate) ∧
      decode (.lit 109) = .ok (.adjustRelativeBase .immediate) := by decide

theorem test_decode_unconsumed_digits :
    decode (.lit 99) = .ok .halt ∧ decode (.lit 199) = .ok .halt ∧ decode (.lit 2099) = .ok .halt ∧
      decode (.lit 2299) = .ok .halt ∧ decode (.lit 1000000001) = .ok (.add .position .position .position) := by decide

theorem test_decode_unknown_opcodes :
    decode (.lit 0) = .error (.unknownOpcode (.lit 0)) ∧ decode (.lit 98) = .error (.unknownOpcode (.lit 98)) ∧
      decode (.lit 300) = .error (.unknownOpcode (.lit 300)) ∧ decode (.lit (-1)) = .error (.unknownOpcode (.lit (-1))) ∧
      decode (.lit (-101)) = .error (.unknownOpcode (.lit (-101))) := by decide

theorem test_decode_malformed_digits :
    decode (.lit 304) = .error (.malformedModeDigit (.lit 304)) ∧
      decode (.lit 30104) = .error (.malformedModeDigit (.lit 30104)) ∧
      decode (.lit 399) = .error (.malformedModeDigit (.lit 399)) ∧
      decode (.lit 90001) = .error (.malformedModeDigit (.lit 90001)) ∧
      decode (.lit 9122222222222222199) = .error (.malformedModeDigit (.lit 9122222222222222199)) := by decide

/-- R88: `ADD #100, #-1, [4]` assembles to `1101, 100, -1, 4`. -/
theorem test_assemble_and_print :
    assemble [⟨.add .immediate .immediate .position, [.lit 100, .lit (-1), .lit 4]⟩] =
        [.lit 1101, .lit 100, .lit (-1), .lit 4] ∧
      CodeLine.text ⟨.add .immediate .immediate .position, [.lit 100, .lit (-1), .lit 4]⟩ = "ADD #100, #-1, [4]" ∧
      CodeLine.text ⟨.output .relative, [.lit (-1)]⟩ = "OUT [rb-1]" := by decide

theorem test_line_decoding_rejects_by_name :
    decodeLine [] = .error .noCells ∧ decodeLine [.lit 0] = .error (.condition (.unknownOpcode (.lit 0))) ∧
      decodeLine [.lit 1105, .lit 1] = .error (.missingOperands 2 1) := by decide

/-! ## One step of each instruction -/

/-- 95 section 1.1. -/
theorem test_add_scenario_A :
    after (boot [.lit 1101, .lit 100, .lit (-1), .lit 4, .lit 0, .lit 99]) (fun t => (t.mem.read (.lit 4), t.ip.val)) =
      some (.lit 99, 4) := by decide

/-- 95 section 2.3: `1101,W-1,1,0`. -/
theorem test_add_overflow :
    status (boot [.lit 1101, .lit 9223372036854775807, .lit 1, .lit 0]) =
      some (.faulted, .arithmeticOverflow, 9223372036854775808, 0) := by decide

/-- 95 section 2.3: `1002,4,3,4,33`. -/
theorem test_multiply_position_and_immediate :
    after (boot [.lit 1002, .lit 4, .lit 3, .lit 4, .lit 33]) (fun t => t.mem.read (.lit 4)) = some (.lit 99) := by decide

/-- 95 section 2.3: `1102,4294967296,-2147483648,5` is `-2^63`, no overflow. -/
theorem test_multiply_least_word :
    after (boot [.lit 1102, .lit 4294967296, .lit (-2147483648), .lit 5]) (fun t => t.mem.read (.lit 5)) =
      some (.lit (-9223372036854775808)) := by decide

/-- 95 section 2.4: `1107,-W,W-1,9` is signed. -/
theorem test_lessThan_signed :
    after (boot [.lit 1107, .lit (-9223372036854775808), .lit 9223372036854775807, .lit 9]) (fun t => t.mem.read (.lit 9)) =
      some (.lit 1) := by decide

/-- 95 section 2.4: `1107,3,3,9`. -/
theorem test_lessThan_equal_values :
    after (boot [.lit 1107, .lit 3, .lit 3, .lit 4, .lit 7]) (fun t => t.mem.read (.lit 4)) = some (.lit 0) := by decide

/-- 95 section 2.4: `108,5,5,7,99,9`. -/
theorem test_equals_immediate_and_position :
    after (boot [.lit 108, .lit 5, .lit 5, .lit 7, .lit 99, .lit 9, .lit 0, .lit 8]) (fun t => t.mem.read (.lit 7)) =
      some (.lit 0) := by decide

/-- 95 section 2.4: `1108,7,7,0,99` writes its own opcode cell. -/
theorem test_equals_over_its_own_opcode :
    after (boot [.lit 1108, .lit 7, .lit 7, .lit 0, .lit 99]) (fun t => (t.mem.read (.lit 0), t.ip.val)) =
      some (.lit 1, 4) := by decide

/-- 95 section 2.5: `103,5,99,0,0,0` with init_input 8. -/
theorem test_input_immediate_destination :
    after (State.resetWith [.lit 103, .lit 5, .lit 99] (.lit 8)) (fun t => (t.mem.read (.lit 5), t.agent.pending, t.ip.val)) =
      some (.lit 8, .lit 8, 2) := by decide

/-- 95 section 2.5: `203,-3` with `rb = 3` writes cell 0. -/
theorem test_input_relative_destination :
    after { State.resetWith [.lit 203, .lit (-3)] (.lit 6) with rb := .lit 3 } (fun t => t.mem.read (.lit 0)) =
      some (.lit 6) := by decide

/-- 95 section 2.8, first row, as a step. -/
theorem test_output_paints :
    after (boot [.lit 104, .lit 1]) (fun t => (t.agent.phase, t.agent.paint, t.outlog, t.paintCount)) =
      some (.turn, [(⟨.lit 0, .lit 0⟩, .lit 1)], [.lit 1], 1) := by decide

/-- 95 section 2.8: Turn, (0,0), East, paint (0,1) = 5, word 1 gives South, (0,1), pending 5. -/
theorem test_output_turns :
    after { boot [.lit 104, .lit 1] with
        agent := { Agent.reset with phase := .turn, heading := .east, paint := [(⟨.lit 0, .lit 1⟩, .lit 5)] } }
      (fun t => (t.agent.phase, t.agent.heading, t.agent.pos, t.agent.pending)) =
      some (.paint, .south, ⟨.lit 0, .lit 1⟩, .lit 5) := by decide

/-- 95 section 2.6: `1105,-9,7`: a negative condition is true. -/
theorem test_jumpIfTrue_negative_condition :
    after (boot [.lit 1105, .lit (-9), .lit 7]) (fun t => t.ip.val) = some 7 := by decide

/-- 95 section 2.6: `105,0,-7`: not taken, and the target operand still raises. -/
theorem test_jumpIfTrue_resolves_unused_target :
    status (boot [.lit 105, .lit 0, .lit (-7)]) = some (.faulted, .invalidAddress, -7, 0) := by decide

/-- 95 section 2.6: `1106,0,7` and `1106,-1,7`. -/
theorem test_jumpIfFalse_both_ways :
    after (boot [.lit 1106, .lit 0, .lit 7]) (fun t => t.ip.val) = some 7 ∧
      after (boot [.lit 1106, .lit (-1), .lit 7]) (fun t => t.ip.val) = some 3 := by decide

/-- 95 section 2.7: `209,2` with `rb = 5` and `mem[7] = 10` uses the old `rb`. -/
theorem test_adjustRelativeBase_old_base :
    after { boot [.lit 209, .lit 2, .lit 0, .lit 0, .lit 0, .lit 0, .lit 0, .lit 10] with rb := .lit 5 } (fun t => t.rb) =
      some (.lit 15) := by decide

/-- 95 section 2.7: `109,-1` with `rb = -W`. -/
theorem test_adjustRelativeBase_overflow :
    status { boot [.lit 109, .lit (-1)] with rb := .lit (-9223372036854775808) } =
      some (.faulted, .arithmeticOverflow, -9223372036854775809, 0) := by decide

/-- 95 section 2.6: `99` halts with `ip = 0`. -/
theorem test_halt : status (boot [.lit 99]) = some (.halted, .none, 0, 0) := by decide

/-! ## Conditions and priority, 95 section 2.9 -/

theorem test_reset_image_of_nothing_is_unknown_opcode :
    status State.reset = some (.faulted, .unknownOpcode, 0, 0) := by decide

theorem test_malformed_digit_step : status (boot [.lit 304, .lit 0]) = some (.faulted, .malformedModeDigit, 304, 0) := by decide

theorem test_first_operand_fails_first :
    status (boot [.lit 1, .lit (-1), .lit (-2), .lit (-3)]) = some (.faulted, .invalidAddress, -1, 0) := by decide

theorem test_destination_precedes_overflow :
    status (boot [.lit 1101, .lit 9223372036854775807, .lit 1, .lit (-3)]) = some (.faulted, .invalidAddress, -3, 0) := by decide

/-- 95 section 2.8, last row: nothing is committed. -/
theorem test_coordinate_overflow :
    after { boot [.lit 104, .lit 1] with
        agent := { Agent.reset with phase := .turn, pos := ⟨.lit 9223372036854775807, .lit 0⟩ } }
      (fun t => (t.runState, t.cause, t.faultInfo, t.agent.phase, t.outlog)) =
      some (.faulted, .coordinateOverflow, 9223372036854775808, .turn, []) := by decide

/-- R101: no step in `Halted` or `Faulted`. -/
theorem test_no_step_when_halted : step { boot [.lit 99] with runState := .halted } = .fault (.notEnabled .halted) := rfl

/-- 95 section 2.2, with `rb = 3`, `mem[10] = 7`, `mem[7] = 70`, `mem[13] = 130`, `mem[0] = -4`, the operand cell 21. -/
def operandState (raw : Word) : State :=
  { boot [] with
    rb := .lit 3
    ip := .lit 20
    mem := [(0, .lit (-4)), (7, .lit 70), (10, .lit 7), (13, .lit 130), (21, raw)] }

theorem test_source_operands :
    srcOperand (operandState (.lit 10)) 1 .position = .ok (.lit 7) ∧
      srcOperand (operandState (.lit 10)) 1 .immediate = .ok (.lit 10) ∧
      srcOperand (operandState (.lit 10)) 1 .relative = .ok (.lit 130) ∧
      srcOperand (operandState (.lit (-3))) 1 .relative = .ok (.lit (-4)) ∧
      srcOperand (operandState (.lit (-1))) 1 .position = .error (.invalidAddress (-1)) ∧
      srcOperand (operandState (.lit 9223372036854775807)) 1 .relative =
        .error (.invalidAddress 9223372036854775810) := by decide

theorem test_destination_operands :
    dstOperand (operandState (.lit 10)) 1 .position = .ok (.lit 10) ∧
      dstOperand (operandState (.lit 10)) 1 .immediate = .ok (.lit 10) ∧
      dstOperand (operandState (.lit 10)) 1 .relative = .ok (.lit 13) ∧
      dstOperand (operandState (.lit (-1))) 1 .immediate = .error (.invalidAddress (-1)) ∧
      dstOperand (operandState (.lit (-4))) 1 .relative = .error (.invalidAddress (-1)) := by decide

theorem test_write_of_zero_unlists :
    Memory.write [(4, .lit 7)] (.lit 4) (.lit 0) = [] ∧ Memory.write [(4, .lit 7)] (.lit 2) (.lit 1) =
      [(2, .lit 1), (4, .lit 7)] := by decide

theorem test_status_outputs :
    (State.statusOutputs (boot [.lit 99])) = ⟨0, 0, 0, 0⟩ ∧
      after (boot [.lit 99]) State.result = some (some 0) := by decide

theorem test_reset_is_canonical : State.reset.mem.wf ∧ State.reset.agent.paint.wf := by decide

theorem test_reset_in_any_state :
    (State.applyReset { boot [] with runState := .faulted, rb := .lit 9 } [.lit 99] (.lit 5)).agent.pending = .lit 5 := rfl

theorem test_table_word_of_opcode_alone :
    decodeTableWord 32 1 = some (.add .position .position .position) ∧ decodeTableWord 8 99 = some .halt ∧
      decodeTableWord 8 10 = none := by decide

theorem test_placed_word_is_the_next_step :
    after (State.withFetchWord State.reset 64 104) (fun t => (t.ip.val, t.outlog)) = some (2, [.lit 0]) := by decide

/-! ## Witnesses: states and operands that meet the hypotheses of a statement, clause by clause -/

/-- Every cell 0, the instruction at `ip`. With Immediate sources and a Position destination every operand is 0. -/
def blankAt (ip : Addr) : State := { boot [] with ip := ip }

/-- An agent in the Turn phase at the position and heading given. -/
def turning (p : Coord) (h : Heading) : Agent := { Agent.reset with phase := .turn, pos := p, heading := h }

theorem witness_LineDecodesFromItsCells :
    CodeLine.WellFormed ⟨.add .immediate .relative .position, [.lit 100, .lit (-1), .lit 4]⟩ ∧
      CodeLine.WellFormed ⟨.halt, []⟩ := by decide

theorem witness_DecodeIgnoresUnconsumedDigits :
    ((∀ k, digitAt k 21 ≤ 2) ∧ (Word.lit 2199).val = (encodeNat .halt + 10 ^ (2 + Instr.operandCount .halt) * 21 : Nat)) ∧
      ((∀ k, digitAt k 22222222222222 ≤ 2) ∧ (Word.lit 2222222222222201201).val =
        (encodeNat (.add .relative .immediate .position) +
          10 ^ (2 + Instr.operandCount (.add .relative .immediate .position)) * 22222222222222 : Nat)) :=
  ⟨⟨(Laws.modeDigitsOk_iff.1 (by decide : modeDigitsOk 17 21 = true)).2, by decide⟩,
    (Laws.modeDigitsOk_iff.1 (by decide : modeDigitsOk 17 22222222222222 = true)).2, by decide⟩

theorem witness_PlacedWordRunsNext : 64 ≤ 64 := by decide

theorem witness_CanonicalMemoriesReadingAlikeAreEqual :
    Memory.wf [(4, .lit 7)] ∧ ∀ a, Memory.read [(4, .lit 7)] a = Memory.read (Memory.write [] (.lit 4) (.lit 7)) a :=
  ⟨by decide, fun _ => rfl⟩

theorem witness_SourceOperandByMode :
    ((Addr.lit 21).val = (operandState (.lit 10)).ip.val + 1 ∧
      ((Addr.lit 10).val : Int) = ((operandState (.lit 10)).mem.read (.lit 21)).val ∧
      ((Addr.lit 13).val : Int) =
        ((operandState (.lit 10)).mem.read (.lit 21)).val + (operandState (.lit 10)).rb.val) ∧
      ¬ InAddr ((operandState (.lit (-1))).mem.read (.lit 21)).val ∧
      ¬ InAddr (((operandState (.lit 9223372036854775805)).mem.read (.lit 21)).val +
        (operandState (.lit 9223372036854775805)).rb.val) ∧
      9223372036854775807 < (blankAt (.lit 9223372036854775807)).ip.val + 1 := by decide

theorem witness_DestinationOperandByMode :
    ((Addr.lit 21).val = (operandState (.lit (-3))).ip.val + 1 ∧
      ((Addr.lit 0).val : Int) =
        ((operandState (.lit (-3))).mem.read (.lit 21)).val + (operandState (.lit (-3))).rb.val) ∧
      ((Addr.lit 9223372036854775807).val : Int) =
        ((operandState (.lit 9223372036854775807)).mem.read (.lit 21)).val ∧
      ¬ InAddr ((operandState (.lit (-1))).mem.read (.lit 21)).val ∧
      ¬ InAddr (((operandState (.lit (-4))).mem.read (.lit 21)).val + (operandState (.lit (-4))).rb.val) ∧
      9223372036854775807 < (blankAt (.lit 9223372036854775806)).ip.val + 2 := by decide

theorem witness_ImmediateDestinationIsTheRawCell :
    (Addr.lit 21).val = (operandState (.lit 9223372036854775807)).ip.val + 1 ∧
      ((Addr.lit 9223372036854775807).val : Int) =
        ((operandState (.lit 9223372036854775807)).mem.read (.lit 21)).val := by decide

/-- A three-operand instruction with the values `a` and `b` and the destination `d`. -/
def threeOperands (a b d : Word) : State := boot [.lit 0, a, b, d]

theorem witness_AddWritesTheSum :
    (Resolves (threeOperands (.lit 9223372036854775806) (.lit 1) (.lit 5)) .immediate .immediate .position
        (.lit 9223372036854775806) (.lit 1) (.lit 5) ∧ (Word.lit 9223372036854775807).val = 9223372036854775806 + 1 ∧
        (Addr.lit 4).val = (threeOperands (.lit 9223372036854775806) (.lit 1) (.lit 5)).ip.val + 4) ∧
      (Resolves (threeOperands (.lit 9223372036854775807) (.lit 1) (.lit 5)) .immediate .immediate .immediate
        (.lit 9223372036854775807) (.lit 1) (.lit 5) ∧ ¬ InWord (9223372036854775807 + 1)) ∧
      (Resolves (blankAt (.lit 9223372036854775804)) .immediate .immediate .position (.lit 0) (.lit 0) (.lit 0) ∧
        InWord (0 + 0) ∧ 9223372036854775807 < (blankAt (.lit 9223372036854775804)).ip.val + 4) := by decide

theorem witness_MultiplyWritesTheProduct :
    (Resolves (threeOperands (.lit 4294967296) (.lit (-2147483648)) (.lit 5)) .immediate .immediate .position
        (.lit 4294967296) (.lit (-2147483648)) (.lit 5) ∧
        (Word.lit (-9223372036854775808)).val = 4294967296 * -2147483648 ∧
        (Addr.lit 4).val = (threeOperands (.lit 4294967296) (.lit (-2147483648)) (.lit 5)).ip.val + 4) ∧
      (Resolves (threeOperands (.lit (-9223372036854775808)) (.lit (-1)) (.lit 5)) .immediate .immediate .relative
        (.lit (-9223372036854775808)) (.lit (-1)) (.lit 5) ∧ ¬ InWord (-9223372036854775808 * -1)) ∧
      (Resolves (blankAt (.lit 9223372036854775804)) .position .immediate .position (.lit 0) (.lit 0) (.lit 0) ∧
        InWord (0 * 0) ∧ 9223372036854775807 < (blankAt (.lit 9223372036854775804)).ip.val + 4) := by decide

theorem witness_LessThanAndEqualsWriteOneOrZero :
    (Resolves (threeOperands (.lit (-1)) (.lit 0) (.lit 5)) .immediate .immediate .position (.lit (-1)) (.lit 0) (.lit 5) ∧
        (Word.lit (-1)).val < (Word.lit 0).val ∧ (Word.lit (-1)).val ≠ (Word.lit 0).val ∧ (Addr.lit 4).val = 0 + 4) ∧
      (Resolves (threeOperands (.lit 3) (.lit 3) (.lit 5)) .immediate .immediate .position (.lit 3) (.lit 3) (.lit 5) ∧
        (Word.lit 3).val ≤ (Word.lit 3).val ∧ (Word.lit 3).val = (Word.lit 3).val) ∧
      (Resolves (blankAt (.lit 9223372036854775804)) .immediate .immediate .position (.lit 0) (.lit 0) (.lit 0) ∧
        9223372036854775807 < (blankAt (.lit 9223372036854775804)).ip.val + 4) := by decide

theorem witness_InputWritesThePendingInput :
    (dstOperand (blankAt (.lit 9223372036854775805)) 1 .position = .ok (.lit 0) ∧
        (Addr.lit 9223372036854775807).val = (blankAt (.lit 9223372036854775805)).ip.val + 2) ∧
      (dstOperand (blankAt (.lit 9223372036854775806)) 1 .immediate = .ok (.lit 0) ∧
        9223372036854775807 < (blankAt (.lit 9223372036854775806)).ip.val + 2) := by decide

theorem witness_OutputInPaintPhasePaints :
    srcOperand (boot [.lit 104, .lit (-9)]) 1 .immediate = .ok (.lit (-9)) ∧
      (Addr.lit 2).val = (boot [.lit 104, .lit (-9)]).ip.val + 2 ∧ (boot [.lit 104, .lit (-9)]).agent.phase = .paint := by
  decide

/-- An Output of `v` by the agent given. -/
def outputBy (v : Word) (a : Agent) : State := { boot [.lit 104, v] with agent := a }

theorem witness_OutputInTurnPhaseTurnsAndMoves :
    srcOperand (outputBy (.lit 1) (turning ⟨.lit 9223372036854775806, .lit 0⟩ .north)) 1 .immediate = .ok (.lit 1) ∧
      (Addr.lit 2).val = (outputBy (.lit 1) (turning ⟨.lit 9223372036854775806, .lit 0⟩ .north)).ip.val + 2 ∧
      (outputBy (.lit 1) (turning ⟨.lit 9223372036854775806, .lit 0⟩ .north)).agent.phase = .turn ∧
      Heading.east = Heading.rotate .north (turnDir (.lit 1)) ∧
      (Word.lit 9223372036854775807).val = 9223372036854775806 + Heading.dx .east ∧
      (Word.lit 0).val = 0 + Heading.dy .east := by decide

theorem witness_OutputConditionsAfterTheOperand :
    (srcOperand (blankAt (.lit 9223372036854775806)) 1 .immediate = .ok (.lit 0) ∧
        9223372036854775807 < (blankAt (.lit 9223372036854775806)).ip.val + 2) ∧
      (srcOperand (outputBy (.lit 1) (turning ⟨.lit 9223372036854775807, .lit 0⟩ .north)) 1 .immediate = .ok (.lit 1) ∧
        (outputBy (.lit 1) (turning ⟨.lit 9223372036854775807, .lit 0⟩ .north)).ip.val + 2 ≤ 9223372036854775807 ∧
        (outputBy (.lit 1) (turning ⟨.lit 9223372036854775807, .lit 0⟩ .north)).agent.phase = .turn ∧
        ¬ InWord (9223372036854775807 + Heading.dx (Heading.rotate .north (turnDir (.lit 1))))) ∧
      (srcOperand (outputBy (.lit 0) (turning ⟨.lit 0, .lit (-9223372036854775808)⟩ .east)) 1 .immediate = .ok (.lit 0) ∧
        (outputBy (.lit 0) (turning ⟨.lit 0, .lit (-9223372036854775808)⟩ .east)).ip.val + 2 ≤ 9223372036854775807 ∧
        (outputBy (.lit 0) (turning ⟨.lit 0, .lit (-9223372036854775808)⟩ .east)).agent.phase = .turn ∧
        ¬ InWord (-9223372036854775808 + Heading.dy (Heading.rotate .east (turnDir (.lit 0))))) := by decide

theorem witness_Jumps :
    (srcOperand (boot [.lit 0, .lit (-1), .lit 9223372036854775807]) 1 .immediate = .ok (.lit (-1)) ∧
        srcOperand (boot [.lit 0, .lit (-1), .lit 9223372036854775807]) 2 .immediate = .ok (.lit 9223372036854775807) ∧
        ((Addr.lit 9223372036854775807).val : Int) = (Word.lit 9223372036854775807).val) ∧
      (srcOperand (blankAt (.lit 9223372036854775804)) 1 .immediate = .ok (.lit 0) ∧
        srcOperand (blankAt (.lit 9223372036854775804)) 2 .immediate = .ok (.lit 0) ∧
        (Addr.lit 9223372036854775807).val = (blankAt (.lit 9223372036854775804)).ip.val + 3) ∧
      (srcOperand (boot [.lit 0, .lit 1, .lit (-1)]) 1 .immediate = .ok (.lit 1) ∧
        srcOperand (boot [.lit 0, .lit 0, .lit (-1)]) 1 .immediate = .ok (.lit 0) ∧
        srcOperand (boot [.lit 0, .lit 0, .lit (-1)]) 2 .immediate = .ok (.lit (-1)) ∧
        srcOperand (boot [.lit 0, .lit 1, .lit (-1)]) 2 .immediate = .ok (.lit (-1))) ∧
      (srcOperand (blankAt (.lit 9223372036854775805)) 1 .immediate = .ok (.lit 0) ∧
        srcOperand (blankAt (.lit 9223372036854775805)) 2 .immediate = .ok (.lit 0) ∧
        9223372036854775807 < (blankAt (.lit 9223372036854775805)).ip.val + 3) := by decide

/-- The fall-through fault of JumpIfFalse, whose condition is nonzero there. -/
theorem witness_JumpIfFalse_fallThrough :
    srcOperand { blankAt (.lit 9223372036854775805) with mem := [(9223372036854775806, .lit 1)] } 1 .immediate = .ok (.lit 1) ∧
      srcOperand { blankAt (.lit 9223372036854775805) with mem := [(9223372036854775806, .lit 1)] } 2 .immediate =
        .ok (.lit 0) := by decide

theorem witness_AdjustRelativeBaseAddsTheOperand :
    (srcOperand (boot [.lit 109, .lit (-5)]) 1 .immediate = .ok (.lit (-5)) ∧ (Word.lit (-5)).val = 0 + -5 ∧
        (Addr.lit 2).val = (boot [.lit 109, .lit (-5)]).ip.val + 2) ∧
      (srcOperand { boot [.lit 109, .lit (-1)] with rb := .lit (-9223372036854775808) } 1 .immediate = .ok (.lit (-1)) ∧
        ¬ InWord (-9223372036854775808 + -1)) ∧
      (srcOperand (blankAt (.lit 9223372036854775806)) 1 .immediate = .ok (.lit 0) ∧ InWord (0 + 0) ∧
        9223372036854775807 < (blankAt (.lit 9223372036854775806)).ip.val + 2) := by decide

theorem witness_OperandConditionsAreRaisedInOrder :
    srcOperand (threeOperands (.lit (-1)) (.lit (-2)) (.lit (-3))) 1 .position = .error (.invalidAddress (-1)) ∧
      (srcOperand (threeOperands (.lit 1) (.lit (-2)) (.lit (-3))) 1 .immediate = .ok (.lit 1) ∧
        srcOperand (threeOperands (.lit 1) (.lit (-2)) (.lit (-3))) 2 .position = .error (.invalidAddress (-2))) ∧
      (srcOperand (threeOperands (.lit 1) (.lit 2) (.lit (-3))) 1 .immediate = .ok (.lit 1) ∧
        srcOperand (threeOperands (.lit 1) (.lit 2) (.lit (-3))) 2 .immediate = .ok (.lit 2) ∧
        dstOperand (threeOperands (.lit 1) (.lit 2) (.lit (-3))) 3 .immediate = .error (.invalidAddress (-3))) ∧
      dstOperand (boot [.lit 3, .lit (-1)]) 1 .position = .error (.invalidAddress (-1)) := by decide

theorem witness_ArithmeticFrame :
    (exec (.add .immediate .immediate .position) (threeOperands (.lit 1) (.lit 2) (.lit 5)) =
        .next { threeOperands (.lit 1) (.lit 2) (.lit 5) with
          mem := (threeOperands (.lit 1) (.lit 2) (.lit 5)).mem.write (.lit 5) (.lit 3), ip := .lit 4 } ∧
      dstOperand (threeOperands (.lit 1) (.lit 2) (.lit 5)) 3 .position = .ok (.lit 5)) ∧
      (∀ d, dstOperand (threeOperands (.lit 1) (.lit 2) (.lit (-5))) 3 .position ≠ .ok d) :=
  ⟨⟨rfl, by decide⟩, fun d h => by
    rw [show dstOperand (threeOperands (.lit 1) (.lit 2) (.lit (-5))) 3 .position = .error (.invalidAddress (-5)) by decide] at h
    cases h⟩

theorem witness_InputFrame :
    exec (.input .position) (boot [.lit 3, .lit 5]) = .next { boot [.lit 3, .lit 5] with ip := .lit 2 } ∧
      dstOperand (boot [.lit 3, .lit 5]) 1 .position = .ok (.lit 5) ∧
      exec (.input .position) (boot [.lit 3, .lit (-5)]) =
        .next { boot [.lit 3, .lit (-5)] with runState := .faulted, cause := .invalidAddress, faultInfo := -5 } :=
  ⟨rfl, by decide, rfl⟩

theorem witness_NonStoringFrame :
    exec (.adjustRelativeBase .immediate) (boot [.lit 109, .lit 5]) =
        .next { boot [.lit 109, .lit 5] with rb := .lit 5, ip := .lit 2 } ∧
      exec (.jumpIfTrue .immediate .immediate) (boot [.lit 1105, .lit 1, .lit (-1)]) =
        .next { boot [.lit 1105, .lit 1, .lit (-1)] with
          runState := .faulted, cause := .invalidAddress, faultInfo := -1 } ∧
      exec .halt (boot [.lit 99]) = .next { boot [.lit 99] with runState := .halted } :=
  ⟨rfl, rfl, rfl⟩

theorem witness_PaintTransitionRecordsTheColour : Agent.reset.phase = .paint := rfl

/-- A Turn onto a painted cell, and one onto a cell never painted. -/
theorem witness_TurnTransitionFeedsBackTheColour :
    (∃ b, (turning ⟨.lit 1, .lit 0⟩ .north).phase = .turn ∧
      emitOutput { turning ⟨.lit 1, .lit 0⟩ .north with paint := [(⟨.lit 0, .lit 0⟩, .lit 7)] } (.lit 0) = .ok b ∧
      b.paint.wf ∧ (b.pos, .lit 7) ∈ b.paint) ∧
      ∃ b, emitOutput (turning ⟨.lit 1, .lit 0⟩ .north) (.lit (-1)) = .ok b ∧ b.pos ∉ b.paint.keys :=
  ⟨⟨_, rfl, rfl, by decide, by decide⟩, _, rfl, by decide⟩

theorem witness_StatusOutputsCodesAndResult :
    ({ boot [.lit 99] with runState := .halted } : State).runState = .halted ∧ (boot [.lit 99]).runState ≠ .halted := by decide

theorem witness_PaintCountCountsPaintedCells :
    ({ boot [.lit 99] with runState := .halted } : State).runState = .halted := rfl

theorem witness_HeadingCodesStepsAndCycles : TurnDir.left ≠ TurnDir.right := by decide

theorem witness_FourDistinctPositionsOnThreeMoves :
    ∃ b c d : Agent, Agent.reset.phase = .paint ∧ replay Agent.reset [.lit 1, .lit 0] = .ok b ∧
      replay b [.lit 1, .lit 0] = .ok c ∧ replay c [.lit 1, .lit 1] = .ok d :=
  ⟨_, _, _, rfl, rfl, rfl, rfl⟩

theorem witness_StepRunsTheDecodedInstruction :
    (boot [.lit 99]).runState = .running ∧ decode ((boot [.lit 99]).mem.read (boot [.lit 99]).ip) = .ok .halt ∧
      decode ((boot [.lit 42]).mem.read (boot [.lit 42]).ip) = .error (.unknownOpcode (.lit 42)) := by decide

/-- A step that halts, one that goes on, and one that faults: the premises of the statements about every step. -/
theorem witness_steps :
    step (boot [.lit 99]) = .next { boot [.lit 99] with runState := .halted } ∧
      step (boot [.lit 1105, .lit 1, .lit 7]) = .next { boot [.lit 1105, .lit 1, .lit 7] with ip := .lit 7 } ∧
      step (boot [.lit 42]) =
        .next { boot [.lit 42] with runState := .faulted, cause := .unknownOpcode, faultInfo := 42 } :=
  ⟨rfl, rfl, rfl⟩

/-- A jump taken and an Add, both going on. -/
theorem witness_NextIpIsPastTheInstructionOrTheTarget :
    (∃ t, step (boot [.lit 1105, .lit 1, .lit 7]) = .next t ∧ t.runState = .running) ∧
      decode ((boot [.lit 1105, .lit 1, .lit 7]).mem.read (.lit 0)) = .ok (.jumpIfTrue .immediate .immediate) ∧
      (∃ t, step (boot [.lit 1101, .lit 2, .lit 3, .lit 5]) = .next t ∧ t.runState = .running) ∧
      decode ((boot [.lit 1101, .lit 2, .lit 3, .lit 5]).mem.read (.lit 0)) = .ok (.add .immediate .immediate .position) :=
  ⟨⟨_, rfl, rfl⟩, by decide, ⟨_, rfl, rfl⟩, by decide⟩

theorem witness_StepEnabledExactlyWhenRunning :
    ({ boot [.lit 99] with runState := .halted } : State).runState ≠ .running ∧
      ({ boot [.lit 42] with runState := .faulted } : State).runState ≠ .running := by decide

/-- The premises of the three clauses of OneEffectPerStep, each on a step that goes on. -/
theorem witness_OneEffectPerStep :
    (∃ t, step (boot [.lit 1101, .lit 2, .lit 3, .lit 5]) = .next t ∧
        t.mem.read (.lit 5) ≠ (boot [.lit 1101, .lit 2, .lit 3, .lit 5]).mem.read (.lit 5)) ∧
      (∃ t, step (boot [.lit 109, .lit 5]) = .next t ∧ t.rb ≠ (boot [.lit 109, .lit 5]).rb) ∧
      ∃ t, step (boot [.lit 104, .lit 5]) = .next t ∧ t.agent ≠ (boot [.lit 104, .lit 5]).agent :=
  ⟨⟨_, rfl, by decide⟩, ⟨_, rfl, by decide⟩, ⟨_, rfl, by decide⟩⟩

theorem witness_PendingIsWrittenOnlyByTurns :
    ∃ t, step (outputBy (.lit 0) { turning ⟨.lit 1, .lit 0⟩ .north with paint := [(⟨.lit 0, .lit 0⟩, .lit 7)] }) = .next t ∧
      t.agent.pending ≠ Word.zero :=
  ⟨_, rfl, by decide⟩

/-- A state about to run the opcode word `w` at address 0 with the operand cells given. -/
def aboutToRun (w : Word) (operands : List Word) : State := boot (w :: operands)

/-- Every clause: the operands resolve, and the destination is the next opcode cell. -/
theorem witness_WriteIsSeenByTheNextFetch :
    (∀ w ∈ [Word.lit 1101, .lit 1102, .lit 1107, .lit 1108],
      (aboutToRun w [.lit 99, .lit 1, .lit 4]).runState = .running ∧
        Resolves (aboutToRun w [.lit 99, .lit 1, .lit 4]) .immediate .immediate .position (.lit 99) (.lit 1) (.lit 4) ∧
        (Addr.lit 4).val = (aboutToRun w [.lit 99, .lit 1, .lit 4]).ip.val + 4) ∧
      ((Word.lit 100).val = 99 + 1 ∧ (Word.lit 99).val = 99 * 1) ∧
      (decode (.lit 1101) = .ok (.add .immediate .immediate .position) ∧
        decode (.lit 1102) = .ok (.multiply .immediate .immediate .position) ∧
        decode (.lit 1107) = .ok (.lessThan .immediate .immediate .position) ∧
        decode (.lit 1108) = .ok (.equals .immediate .immediate .position)) ∧
      dstOperand (aboutToRun (.lit 3) [.lit 2]) 1 .position = .ok (.lit 2) ∧
        (Addr.lit 2).val = (aboutToRun (.lit 3) [.lit 2]).ip.val + 2 ∧ decode (.lit 3) = .ok (.input .position) := by decide

/-- The last address with a next opcode cell. -/
theorem witness_WriteIsSeenByTheNextFetch_boundary :
    Resolves { blankAt (.lit 9223372036854775803) with mem := [(9223372036854775806, .lit 9223372036854775807)] }
        .immediate .immediate .position (.lit 0) (.lit 0) (.lit 9223372036854775807) ∧
      (Addr.lit 9223372036854775807).val = (blankAt (.lit 9223372036854775803)).ip.val + 4 := by decide

theorem witness_RunIsAFunctionOfImageAndInitInput :
    ∃ s, Reachable [.lit 99] (.lit 0) s ∧ s.runState ≠ .running :=
  ⟨{ boot [.lit 99] with runState := .halted }, .step (s := boot [.lit 99]) .reset rfl, by decide⟩

/-- The spec's own example (R110), and a JumpIfFalse in Position and Relative modes. -/
theorem witness_JumpToItselfNeverEnds :
    ((boot [.lit 1105, .lit 1, .lit 0]).runState = .running ∧
        srcOperand (boot [.lit 1105, .lit 1, .lit 0]) 1 .immediate = .ok (.lit 1) ∧
        srcOperand (boot [.lit 1105, .lit 1, .lit 0]) 2 .immediate = .ok (.lit 0) ∧
        (Word.lit 0).val = (boot [.lit 1105, .lit 1, .lit 0]).ip.val ∧
        decode (.lit 1105) = .ok (.jumpIfTrue .immediate .immediate) ∧ (Word.lit 1).val ≠ 0) ∧
      (boot [.lit 2006, .lit 9, .lit 9]).runState = .running ∧
        srcOperand (boot [.lit 2006, .lit 9, .lit 9]) 1 .position = .ok (.lit 0) ∧
        srcOperand (boot [.lit 2006, .lit 9, .lit 9]) 2 .relative = .ok (.lit 0) ∧
        (Word.lit 0).val = (boot [.lit 2006, .lit 9, .lit 9]).ip.val ∧
        decode (.lit 2006) = .ok (.jumpIfFalse .position .relative) := by decide

/-- Two states that differ in `outlog`, one pair with a next state and one without. -/
theorem witness_OutlogIsNeverRead :
    AgreeButOutlog (boot [.lit 104, .lit 1]) { boot [.lit 104, .lit 1] with outlog := [.lit 7] } ∧
      (∃ t, step (boot [.lit 104, .lit 1]) = .next t) ∧
      AgreeButOutlog { boot [] with runState := .halted } { boot [] with runState := .halted, outlog := [.lit 7] } ∧
      ∃ f, step { boot [] with runState := .halted } = .fault f :=
  ⟨rfl, ⟨_, rfl⟩, rfl, _, rfl⟩

/-- A state that has logged `n` outputs and stands at the east end of the grid, about to turn. -/
def eastEnd (n : Nat) : State :=
  { outputBy (.lit 1) (turning ⟨.lit 9223372036854775807, .lit 0⟩ .north) with outlog := List.replicate n Word.zero }

theorem witness_CoordinateOverflowNeedsManyMoves :
    WithinMoves (eastEnd 18446744073709551615) ∧ (∀ n, (eastEnd n).cause = .none) ∧
      ∀ n, step (eastEnd n) =
        .next { eastEnd n with runState := .faulted, cause := .coordinateOverflow, faultInfo := 9223372036854775808 } := by
  refine ⟨?_, fun _ => rfl, fun n => by with_unfolding_all rfl⟩
  simp only [WithinMoves, PhaseMatchesOutputs, eastEnd, List.length_replicate]
  decide

theorem witness_ResetSetsEveryField : ∃ w rest, [Word.lit 1101, .lit 100] = w :: rest := ⟨_, _, rfl⟩

theorem witness_ResetMeetsTheInvariants : ImageWellFormed [.lit 1101, .lit 100, .lit (-1), .lit 4] := by decide

/-- A state that meets every invariant, and a step from it that has a next state: the premises of the invariants. -/
theorem witness_invariants :
    (CanonicalMaps (boot [.lit 104, .lit 1]) ∧ StatusConsistent (boot [.lit 104, .lit 1]) ∧
      PhaseMatchesOutputs (boot [.lit 104, .lit 1]) ∧ PaintCountBounded (boot [.lit 104, .lit 1]) ∧
      WithinMoves (boot [.lit 104, .lit 1]) ∧ HeadingMatchesMoves (boot [.lit 104, .lit 1]) ∧
      PendingIsColourHere (boot [.lit 104, .lit 1]) ∧ AgentFollowsOutlog Word.zero (boot [.lit 104, .lit 1])) ∧
      ∃ t, step (boot [.lit 104, .lit 1]) = .next t :=
  ⟨by decide, _, rfl⟩

end Sys2Proof.Tests
end

/-! ## The agent's phase (R25): what an instruction, and then a step, does to it -/

namespace Sys2Proof.Machine

variable {s t : State} {i : Instr}

/-- R204: each of the two transitions ends in the other phase. -/
theorem emitOutput_phase_ne {a b : Agent} {v : Word} (h : emitOutput a v = .ok b) : b.phase ≠ a.phase := by
  rcases emitOutput_eq_ok.1 h with ⟨hp, rfl⟩ | ⟨hp, p, -, rfl⟩
  · simp [hp]
  · simp [hp]

/-- R190: an instruction that is no Output leaves the agent as it is. -/
theorem instrResult_agent_of_ne_output (h : instrResult i s = .ok t) (hi : ∀ m, i ≠ .output m) : t.agent = s.agent := by
  rcases instrResult_cases h with
    ⟨_, _, _, rfl⟩ | ⟨_, _, _, -, rfl⟩ | ⟨m, _, _, _, rfl, -, -⟩ | ⟨_, rfl⟩ | ⟨-, rfl⟩
  · rfl
  · rfl
  · exact absurd rfl (hi m)
  · rfl
  · rfl

/-- R226: only a condition leads into `Faulted`. -/
theorem instrResult_not_faulted (h : instrResult i s = .ok t) (hs : s.runState ≠ .faulted) : t.runState ≠ .faulted := by
  rcases instrResult_cases h with
    ⟨_, _, _, rfl⟩ | ⟨_, _, _, -, rfl⟩ | ⟨_, _, _, _, -, -, rfl⟩ | ⟨_, rfl⟩ | ⟨-, rfl⟩
  · exact hs
  · exact hs
  · exact hs
  · exact hs
  · exact RunState.noConfusion

/-- R25: of the instructions that raise nothing, exactly Output changes the phase. -/
theorem instrResult_phase_ne_iff (h : instrResult i s = .ok t) :
    t.agent.phase ≠ s.agent.phase ↔ ∃ m, i = .output m := by
  constructor
  · intro hne
    by_contra hi
    exact hne (congrArg Agent.phase (instrResult_agent_of_ne_output h (not_exists.1 hi)))
  · rintro ⟨m, rfl⟩
    obtain ⟨v, n, a, -, -, ha, rfl⟩ := outputResult_eq_ok.1 h
    exact emitOutput_phase_ne ha

/-- R25: over a step, the phase changes exactly on an Output that raises no condition. -/
theorem step_phase_ne_iff (h : step s = .next t) :
    t.agent.phase ≠ s.agent.phase ↔ t.runState ≠ .faulted ∧ ∃ m, fetchDecode s = .ok (.output m) := by
  rcases step_cases h with ⟨c, rfl⟩ | ⟨i, hf, hi⟩
  · simp
  · have hrun : t.runState ≠ .faulted := instrResult_not_faulted hi (by simp [running_of_step h])
    simp only [instrResult_phase_ne_iff hi, hf, Except.ok.injEq, hrun, ne_eq, not_false_eq_true, true_and]

end Sys2Proof.Machine

namespace Sys2Proof.Proofs

open Sys2Proof.Machine

/-- Settles O41: a condition leaves the agent alone, and of the instructions exactly Output makes a transition of the agent, each of
which ends in the other phase; reset puts the agent in the Paint phase. -/
theorem phaseTogglesExactlyOnOutput : Obligations.PhaseTogglesExactlyOnOutput :=
  ⟨fun _ _ h => step_phase_ne_iff h, fun _ _ => rfl⟩

end Sys2Proof.Proofs

/-! ## Memory after a sequence of writes (R51, R52) -/

namespace Sys2Proof.Machine

/-- R51, R52: over any memory. The induction adds a write at the end, which is the first that the reversed list is asked for. -/
theorem Memory.read_foldl_write (m : Memory) (ws : List (Addr × Word)) (a : Addr) :
    (ws.foldl (fun m e => m.write e.1 e.2) m).read a =
      ((ws.reverse.find? (fun e => e.1 = a)).map Prod.snd).getD (m.read a) := by
  induction ws using List.reverseRecOn with
  | nil => rfl
  | append_singleton ws e ih =>
    rw [List.foldl_concat, List.reverse_concat]
    by_cases h : e.1 = a
    · rw [List.find?_cons_of_pos (by simpa using h), ← h]
      exact Memory.read_write_same _ _ _
    · rw [List.find?_cons_of_neg (by simpa using h), ← ih]
      exact Memory.read_write_other _ (Ne.symm h) _

end Sys2Proof.Machine

namespace Sys2Proof.Proofs

open Sys2Proof.Machine

/-- Settles O8: the reads after any writes, with what the image itself reads as where no write was. -/
theorem readGivesLastWriteOrImageOrZero : Obligations.ReadGivesLastWriteOrImageOrZero := by
  intro image ws a
  rw [Memory.read_foldl_write, Memory.read_ofImage]
  cases ws.reverse.find? (fun e => e.1 = a) with
  | none => rfl
  | some e => rfl

end Sys2Proof.Proofs

/-! ## The Immediate digit on a destination (R79) -/

namespace Sys2Proof.Machine

variable {s : State} {k : Nat}

/-- R79: the two digits resolve alike, where the operand cell cannot be read too. -/
theorem dstOperand_immediate_eq_position : dstOperand s k .immediate = dstOperand s k .position := by
  cases hr : rawOperand s k with
  | error c => rw [dstOperand_of_raw_error hr, dstOperand_of_raw_error hr]
  | ok raw => rw [dstOperand_immediate hr, dstOperand_position hr]

/-- R79: where the raw cell holds an address, that address is the destination. -/
theorem dstOperand_immediate_eq_ok {cell a : Addr} (hcell : cell.val = s.ip.val + k)
    (ha : (a.val : Int) = (s.mem.read cell).val) : dstOperand s k .immediate = .ok a := by
  rw [dstOperand_immediate (rawOperand_eq_ok.2 ⟨cell, hcell, rfl⟩)]
  exact checkAddr_eq_ok.2 ha

end Sys2Proof.Machine

namespace Sys2Proof.Proofs

open Sys2Proof.Machine

/-- Settles O12: both digits check the raw cell value as the write address, and that check passes where the value is an address. -/
theorem immediateDestinationIsTheRawCell : Obligations.ImmediateDestinationIsTheRawCell :=
  fun _ _ => ⟨dstOperand_immediate_eq_position, fun _ _ => dstOperand_immediate_eq_ok⟩

end Sys2Proof.Proofs

/-! ## Where a step is enabled (R101) -/

namespace Sys2Proof.Machine

variable {s : State}

/-- R101: a word that does not decode, and an instruction that raises a condition, have a next state too, in `Faulted` (R103, R226). -/
theorem exists_step_of_running (h : s.runState = .running) : ∃ t, step s = .next t := by
  cases hf : fetchDecode s with
  | error c => exact ⟨_, step_eq_next.2 ⟨h, .inr (.inl ⟨c, hf, rfl⟩)⟩⟩
  | ok i =>
    cases hi : instrResult i s with
    | error c => exact ⟨_, step_eq_next.2 ⟨h, .inr (.inr ⟨i, c, hf, hi, rfl⟩)⟩⟩
    | ok t => exact ⟨t, step_eq_next.2 ⟨h, .inl ⟨i, hf, hi⟩⟩⟩

theorem exists_step_iff_running : (∃ t, step s = .next t) ↔ s.runState = .running :=
  ⟨fun ⟨_, h⟩ => running_of_step h, exists_step_of_running⟩

end Sys2Proof.Machine

namespace Sys2Proof.Proofs

open Sys2Proof.Machine

/-- Settles O35: a step has a next state exactly in `Running`, and a run stops where there is none. -/
theorem stepEnabledExactlyWhenRunning : Obligations.StepEnabledExactlyWhenRunning :=
  fun _ => ⟨exists_step_iff_running, Safety.run_of_not_running⟩

end Sys2Proof.Proofs

/-! ## The relative base (R180, R181): what an instruction, a step, and then a run adds to it -/

namespace Sys2Proof.Machine

variable {s t : State} {i : Instr}

/-- R181: an instruction that is no AdjustRelativeBase leaves `rb` as it is. -/
theorem instrResult_rb_of_ne_adjustRelativeBase (h : instrResult i s = .ok t) (hi : ∀ m, i ≠ .adjustRelativeBase m) :
    t.rb = s.rb := by
  rcases instrResult_cases h with
    ⟨_, _, _, rfl⟩ | ⟨m, _, _, rfl, -⟩ | ⟨_, _, _, _, -, -, rfl⟩ | ⟨_, rfl⟩ | ⟨-, rfl⟩
  · rfl
  · exact absurd rfl (hi m)
  · rfl
  · rfl
  · rfl

end Sys2Proof.Machine

namespace Sys2Proof.Safety

open Sys2Proof.Machine

variable {s t : State}

theorem adjustment_of_no_step (h : ∀ t, step s ≠ .next t) : adjustment s = 0 := by
  unfold adjustment
  split
  · exact absurd ‹_› (h _)
  · rfl

theorem adjustment_of_faulted (h : step s = .next t) (ht : t.runState = .faulted) : adjustment s = 0 := by
  unfold adjustment
  rw [h]
  split
  · next heq _ => cases heq; exact if_pos ht
  · rfl

theorem adjustment_of_ne_adjustRelativeBase (h : ∀ m, fetchDecode s ≠ .ok (.adjustRelativeBase m)) : adjustment s = 0 := by
  unfold adjustment
  split
  · exact absurd ‹_› (h _)
  · rfl

theorem adjustment_of_adjustRelativeBase {m : Mode} {v : Word} (h : step s = .next t) (ht : t.runState ≠ .faulted)
    (hf : fetchDecode s = .ok (.adjustRelativeBase m)) (hv : srcOperand s 1 m = .ok v) : adjustment s = v.val := by
  simp only [adjustment, h, hf, hv, if_neg ht]

/-- R180, R181: a step adds its adjustment to `rb`, which is 0 where it takes a condition or runs any other instruction. -/
theorem step_rb (h : step s = .next t) : t.rb.val = s.rb.val + adjustment s := by
  rcases step_cases h with ⟨c, rfl⟩ | ⟨i, hf, hi⟩
  · rw [adjustment_of_faulted h rfl, add_zero]
    rfl
  · by_cases hm : ∃ m, i = .adjustRelativeBase m
    · obtain ⟨m, rfl⟩ := hm
      have hrun : t.runState ≠ .faulted := instrResult_not_faulted hi (by simp [running_of_step h])
      obtain ⟨v, r, n, hv, hr, -, rfl⟩ := adjustRelativeBaseResult_eq_ok.1 hi
      rw [adjustment_of_adjustRelativeBase h hrun hf hv]
      exact hr
    · have hne : ∀ m, i ≠ .adjustRelativeBase m := not_exists.1 hm
      rw [instrResult_rb_of_ne_adjustRelativeBase hi hne,
        adjustment_of_ne_adjustRelativeBase (by simpa [hf] using hne), add_zero]

/-- R110, R181: the same of a run of at most one step, which adds nothing where no step is enabled. -/
theorem run_one_rb (s : State) : (run 1 s).rb.val = s.rb.val + adjustment s := by
  by_cases h : ∃ t, step s = .next t
  · obtain ⟨t, h⟩ := h
    rw [run_of_step h, run, step_rb h]
  · have h : ∀ t, step s ≠ .next t := not_exists.1 h
    rw [run_of_no_step h, adjustment_of_no_step h, add_zero]

/-- R181: the adjustments of a run add up in `rb`. The induction adds a step at the end of the run, as `List.range` does. -/
theorem run_rb (s : State) (n : Nat) :
    (run n s).rb.val = s.rb.val + ((List.range n).map fun k => adjustment (run k s)).sum := by
  induction n with
  | zero => simp [run]
  | succ n ih =>
    rw [run_add, run_one_rb, ih, List.range_succ, List.map_append, List.sum_append, List.map_singleton, List.sum_singleton,
      add_assoc]

end Sys2Proof.Safety

namespace Sys2Proof.Proofs

/-- Settles O40: a step adds its adjustment to `rb` and nothing else, and over a run these add up. -/
theorem relativeBaseIsSumOfAdjustments : Obligations.RelativeBaseIsSumOfAdjustments :=
  Safety.run_rb

end Sys2Proof.Proofs

/-! ## The paint count (R198): a paint adds the painted cell to the set of keys -/

namespace Sys2Proof.Machine

/-- R31, R192: the set of the cells ever painted, after a paint. -/
theorem PaintMap.toFinset_keys_put (m : PaintMap) (p : Coord) (v : Word) :
    (m.put p v).keys.toFinset = insert p m.keys.toFinset := by
  ext q
  simp only [List.mem_toFinset, Finset.mem_insert, PaintMap.mem_keys_put]

theorem paintCount_eq_card (s : State) : s.paintCount = s.agent.paint.keys.toFinset.card :=
  (List.card_toFinset _).symm

/-- R198: a Paint transition counts the agent's cell once. -/
theorem paintCount_paintTransition (s : State) (v : Word) :
    ({ s with agent := Agent.paintTransition s.agent v } : State).paintCount =
      if s.agent.pos ∈ s.agent.paint.keys then s.paintCount else s.paintCount + 1 := by
  simp only [paintCount_eq_card, paintTransition_paint, PaintMap.toFinset_keys_put, Finset.card_insert_eq_ite,
    List.mem_toFinset]

/-- R111: the result of a run that has ended in `Halted`. -/
theorem result_of_halted {s : State} (h : s.runState = .halted) : s.result = some s.paintCount := by
  rw [State.result, h]

end Sys2Proof.Machine

namespace Sys2Proof.Proofs

open Sys2Proof.Machine

/-- Settles O44: the keys as a set gain exactly the painted cell, so their number grows where the cell is new. -/
theorem paintCountCountsPaintedCells : Obligations.PaintCountCountsPaintedCells :=
  fun s => ⟨paintCount_eq_card s, paintCount_paintTransition s, result_of_halted⟩

end Sys2Proof.Proofs

/-! ## The pending input (R196, R197): what a transition of the agent, and then a step, does to it -/

namespace Sys2Proof.Machine

variable {s t : State} {a b : Agent} {v : Word}

/-- R192: a Paint transition leaves `pending` as it is. -/
theorem emitOutput_pending_of_paint (hp : a.phase = .paint) (h : emitOutput a v = .ok b) : b.pending = a.pending := by
  rcases emitOutput_eq_ok.1 h with ⟨-, rfl⟩ | ⟨ht, -⟩
  · rfl
  · cases hp.symm.trans ht

/-- R196: a Turn transition feeds back the colour of the cell it moves to. -/
theorem emitOutput_pending_of_turn (hp : a.phase = .turn) (h : emitOutput a v = .ok b) :
    b.pending = b.paint.colour b.pos := by
  rcases emitOutput_eq_ok.1 h with ⟨ht, -⟩ | ⟨-, p, -, rfl⟩
  · cases hp.symm.trans ht
  · rfl

/-- R190, R191: a step leaves the agent as it is, or is an Output and makes the agent's transition on its operand's value. -/
theorem step_agent_cases (h : step s = .next t) :
    t.agent = s.agent ∨
      ∃ m v, fetchDecode s = .ok (.output m) ∧ srcOperand s 1 m = .ok v ∧ emitOutput s.agent v = .ok t.agent := by
  rcases step_cases h with ⟨c, rfl⟩ | ⟨i, hf, hi⟩
  · exact .inl (takeFatal_agent c s)
  · by_cases hm : ∃ m, i = .output m
    · obtain ⟨m, rfl⟩ := hm
      obtain ⟨v, n, a, hv, -, ha, rfl⟩ := outputResult_eq_ok.1 hi
      exact .inr ⟨m, v, hf, hv, ha⟩
    · exact .inl (instrResult_agent_of_ne_output hi (not_exists.1 hm))

/-- R197: a step that changes `pending` is an Output in the Turn phase. -/
theorem step_pending_ne (h : step s = .next t) (hne : t.agent.pending ≠ s.agent.pending) :
    s.agent.phase = .turn ∧ (∃ m, fetchDecode s = .ok (.output m)) ∧
      t.agent.pending = t.agent.paint.colour t.agent.pos := by
  rcases step_agent_cases h with hsame | ⟨m, v, hf, -, ha⟩
  · exact absurd (congrArg Agent.pending hsame) hne
  · cases hp : s.agent.phase with
    | paint => exact absurd (emitOutput_pending_of_paint hp ha) hne
    | turn => exact ⟨rfl, ⟨m, hf⟩, emitOutput_pending_of_turn hp ha⟩

end Sys2Proof.Machine

namespace Sys2Proof.Proofs

open Sys2Proof.Machine

/-- Settles O43: a step touches the agent only by an Output, whose Paint transition keeps `pending` and whose Turn transition sets it
to the colour of the new cell. -/
theorem pendingIsWrittenOnlyByTurns : Obligations.PendingIsWrittenOnlyByTurns :=
  ⟨fun _ => rfl, fun _ _ => rfl, fun _ _ => step_pending_ne⟩

end Sys2Proof.Proofs

/-! ## The Paint transition (R192) -/

namespace Sys2Proof.Machine

theorem emitOutput_of_paint {a : Agent} (hp : a.phase = .paint) (v : Word) :
    emitOutput a v = .ok (Agent.paintTransition a v) :=
  emitOutput_eq_ok.2 (.inl ⟨hp, rfl⟩)

end Sys2Proof.Machine

namespace Sys2Proof.Proofs

open Sys2Proof.Machine

/-- Settles O29: the new map is the old one with the agent's cell put in, whose colours and keys the laws of `PaintMap.put` give. -/
theorem paintTransitionRecordsTheColour : Obligations.PaintTransitionRecordsTheColour :=
  fun a v hp => ⟨a.paint.put a.pos v, emitOutput_of_paint hp v, PaintMap.colour_put_same _ _ _,
    fun _ hq => PaintMap.colour_put_other _ hq _, fun _ => PaintMap.mem_keys_put⟩

end Sys2Proof.Proofs

/-! ## The turn command (R193) -/

namespace Sys2Proof.Machine

variable {v : Word}

theorem turnDir_eq_left_iff : turnDir v = .left ↔ v.val = 0 := by
  by_cases h : v.val = 0 <;> simp [turnDir, wordNonzero, h]

/-- R193: every word that does not turn left turns right. -/
theorem turnDir_eq_right_iff : turnDir v = .right ↔ v.val ≠ 0 := by
  rw [ne_eq, ← turnDir_eq_left_iff]
  cases turnDir v with
  | left => simp
  | right => simp

end Sys2Proof.Machine

namespace Sys2Proof.Proofs

open Sys2Proof.Machine

/-- Settles O31: the turn command by whether the word is 0, and the table entry by entry. -/
theorem turnCommandRotatesByTheTable : Obligations.TurnCommandRotatesByTheTable :=
  ⟨fun _ => turnDir_eq_left_iff, fun _ => turnDir_eq_right_iff, rfl, rfl, rfl, rfl, rfl, rfl, rfl, rfl⟩

end Sys2Proof.Proofs

/-! ## The agent and the log over a step (R190, R200, R201) -/

namespace Sys2Proof.Machine

variable {s t : State} {i : Instr}

/-- R200: an instruction that is no Output leaves the log as it is. -/
theorem instrResult_outlog_of_ne_output (h : instrResult i s = .ok t) (hi : ∀ m, i ≠ .output m) : t.outlog = s.outlog := by
  rcases instrResult_cases h with
    ⟨_, _, _, rfl⟩ | ⟨_, _, _, -, rfl⟩ | ⟨m, _, _, _, rfl, -, -⟩ | ⟨_, rfl⟩ | ⟨-, rfl⟩
  · rfl
  · rfl
  · exact absurd rfl (hi m)
  · rfl
  · rfl

/-- R200, R201: a step leaves the agent and the log, or is an Output that makes the agent's transition and logs its word. -/
theorem step_agent_outlog_cases (h : step s = .next t) :
    (t.agent = s.agent ∧ t.outlog = s.outlog) ∨
      ∃ m v, fetchDecode s = .ok (.output m) ∧ srcOperand s 1 m = .ok v ∧ emitOutput s.agent v = .ok t.agent ∧
        t.outlog = s.outlog ++ [v] := by
  rcases step_cases h with ⟨c, rfl⟩ | ⟨i, hf, hi⟩
  · exact .inl ⟨takeFatal_agent c s, takeFatal_outlog c s⟩
  · by_cases hm : ∃ m, i = .output m
    · obtain ⟨m, rfl⟩ := hm
      obtain ⟨v, n, a, hv, -, ha, rfl⟩ := outputResult_eq_ok.1 hi
      exact .inr ⟨m, v, hf, hv, ha, rfl⟩
    · have hm := not_exists.1 hm
      exact .inl ⟨instrResult_agent_of_ne_output hi hm, instrResult_outlog_of_ne_output hi hm⟩

/-- A property of the agent and the log alone (`reads`) that every transition with its word logged keeps (`output`) is kept by every
step. -/
theorem step_keeps_of_output_keeps {P : State → Prop}
    (reads : ∀ s u : State, P s → P { u with agent := s.agent, outlog := s.outlog })
    (output : ∀ (s : State) (a : Agent) (v : Word), P s → emitOutput s.agent v = .ok a →
      P { s with agent := a, outlog := s.outlog ++ [v] })
    (hs : P s) (h : step s = .next t) : P t := by
  rcases step_agent_outlog_cases h with ⟨ha, hl⟩ | ⟨m, v, -, -, ha, hl⟩
  · have := reads s t hs
    rwa [← ha, ← hl] at this
  · have := reads _ t (output s _ v hs ha)
    rwa [← hl] at this

end Sys2Proof.Machine

namespace Sys2Proof.Proofs

open Sys2Proof.Machine

/-- Settles O42: the case split of a step by whether it is an Output that raises nothing. -/
theorem onlyOutputDrivesTheAgent : Obligations.OnlyOutputDrivesTheAgent :=
  fun _ _ => step_agent_outlog_cases

end Sys2Proof.Proofs

/-! ## The phase and the number of outputs (R201) -/

namespace Sys2Proof.Safety

open Sys2Proof.Machine

variable {s : State} {a : Agent} {v : Word}

/-- R201: one output more, and the other phase. -/
theorem phaseMatchesOutputs_of_output (hs : PhaseMatchesOutputs s) (h : emitOutput s.agent v = .ok a) :
    PhaseMatchesOutputs { s with agent := a, outlog := s.outlog ++ [v] } := by
  have htoggle : a.phase = .paint ↔ ¬ s.agent.phase = .paint := by
    rcases emitOutput_eq_ok.1 h with ⟨hp, rfl⟩ | ⟨hp, p, -, rfl⟩ <;> simp [hp]
  simp only [PhaseMatchesOutputs, List.length_append, List.length_singleton, htoggle, hs]
  omega

/-- R201, R204: which transition an output makes, by the number of outputs before it. -/
theorem emitOutput_cases_of_phaseMatchesOutputs (hs : PhaseMatchesOutputs s) (h : emitOutput s.agent v = .ok a) :
    (s.outlog.length % 2 = 0 ∧ a = Agent.paintTransition s.agent v) ∨
      (s.outlog.length % 2 = 1 ∧ ∃ p, Coord.move s.agent.pos (Heading.rotate s.agent.heading (turnDir v)) = .ok p ∧
        a = { s.agent with
          heading := Heading.rotate s.agent.heading (turnDir v), pos := p, pending := s.agent.paint.colour p,
          phase := .paint }) := by
  rcases emitOutput_eq_ok.1 h with ⟨hp, ha⟩ | ⟨hp, hmove⟩
  · exact .inl ⟨hs.1 hp, ha⟩
  · have hodd : ¬ s.outlog.length % 2 = 0 := fun h => by simp [hs.2 h] at hp
    exact .inr ⟨by omega, hmove⟩

end Sys2Proof.Safety

namespace Sys2Proof.Proofs

open Sys2Proof.Machine Sys2Proof.Safety

/-- Settles O54: an output toggles the phase and the parity; no other step touches either. -/
theorem stepKeepsPhaseMatchesOutputs : Obligations.StepKeepsPhaseMatchesOutputs :=
  fun _ _ => step_keeps_of_output_keeps (fun _ _ hs => hs) fun _ _ _ => phaseMatchesOutputs_of_output

end Sys2Proof.Proofs

/-! ## The bound on the paint count (R34) -/

namespace Sys2Proof.Machine

theorem emitOutput_paint_wf {a b : Agent} {v : Word} (hw : a.paint.wf) (h : emitOutput a v = .ok b) : b.paint.wf := by
  rcases emitOutput_eq_ok.1 h with ⟨-, rfl⟩ | ⟨-, p, -, rfl⟩
  · exact PaintMap.put_wf _ _ hw
  · exact hw

/-- R198: a Paint transition adds at most one cell. -/
theorem paintCount_paintTransition_le (s : State) (v : Word) :
    ({ s with agent := Agent.paintTransition s.agent v } : State).paintCount ≤ s.paintCount + 1 := by
  rw [paintCount_paintTransition]
  split <;> omega

end Sys2Proof.Machine

namespace Sys2Proof.Safety

open Sys2Proof.Machine

variable {s : State} {a : Agent} {v : Word}

/-- R34: a paint is the odd-numbered output, which the bound counts; a turn paints nothing. -/
theorem paintCountBounded_of_output (hs : PaintCountBounded s) (h : emitOutput s.agent v = .ok a) :
    PaintCountBounded { s with agent := a, outlog := s.outlog ++ [v] } := by
  obtain ⟨hphase, hwf, hcount⟩ := hs
  refine ⟨phaseMatchesOutputs_of_output hphase h, emitOutput_paint_wf hwf h, ?_⟩
  rw [List.length_append, List.length_singleton]
  rcases emitOutput_cases_of_phaseMatchesOutputs hphase h with ⟨heven, rfl⟩ | ⟨-, p, -, rfl⟩
  · have := paintCount_paintTransition_le s v
    calc _ ≤ s.paintCount + 1 := this
      _ ≤ _ := by omega
  · calc _ ≤ (s.outlog.length + 1) / 2 := hcount
      _ ≤ _ := by omega

end Sys2Proof.Safety

namespace Sys2Proof.Proofs

open Sys2Proof.Machine Sys2Proof.Safety

/-- Settles O55: a Paint transition adds at most one key, and with the parity of the phase it is the output the bound grows on. -/
theorem stepKeepsPaintCountBounded : Obligations.StepKeepsPaintCountBounded :=
  fun _ _ => step_keeps_of_output_keeps (fun _ _ hs => hs) fun _ _ _ => paintCountBounded_of_output

end Sys2Proof.Proofs

/-! ## The distance from the start (R195, R199) -/

namespace Sys2Proof.Machine

/-- R195: a unit step is of length 1. -/
theorem Heading.unit_step (h : Heading) : (Heading.dx h).natAbs + (Heading.dy h).natAbs = 1 := by cases h <;> rfl

/-- R195, R199: a move takes the agent at most one unit further from the start. -/
theorem move_natAbs_le {p q : Coord} {h : Heading} (hm : Coord.move p h = .ok q) :
    q.x.val.natAbs + q.y.val.natAbs ≤ p.x.val.natAbs + p.y.val.natAbs + 1 := by
  obtain ⟨hx, hy⟩ := move_eq_ok.1 hm
  have := Heading.unit_step h
  omega

end Sys2Proof.Machine

namespace Sys2Proof.Safety

open Sys2Proof.Machine

variable {s : State} {a : Agent} {v : Word}

/-- R199: a move is the even-numbered output, which the bound counts; a paint leaves the position. -/
theorem withinMoves_of_output (hs : WithinMoves s) (h : emitOutput s.agent v = .ok a) :
    WithinMoves { s with agent := a, outlog := s.outlog ++ [v] } := by
  obtain ⟨hphase, hdist⟩ := hs
  refine ⟨phaseMatchesOutputs_of_output hphase h, ?_⟩
  simp only [List.length_append, List.length_singleton]
  rcases emitOutput_cases_of_phaseMatchesOutputs hphase h with ⟨-, rfl⟩ | ⟨hodd, p, hmove, rfl⟩
  · rw [paintTransition_pos]; omega
  · have := move_natAbs_le hmove
    dsimp only
    omega

end Sys2Proof.Safety

namespace Sys2Proof.Proofs

open Sys2Proof.Machine Sys2Proof.Safety

/-- Settles O56: a move adds at most one unit, and with the parity of the phase it is the output the bound grows on. -/
theorem stepKeepsWithinMoves : Obligations.StepKeepsWithinMoves :=
  fun _ _ => step_keeps_of_output_keeps (fun _ _ hs => hs) fun _ _ _ => withinMoves_of_output

end Sys2Proof.Proofs

/-! ## The agent as the replay of the log (R190, R191) -/

namespace Sys2Proof.Safety

open Sys2Proof.Machine

/-- R191: one word more is one transition more. -/
theorem replay_concat {a b c : Agent} {l : List Word} {v : Word} (hl : replay a l = .ok b) (hv : emitOutput b v = .ok c) :
    replay a (l ++ [v]) = .ok c := by
  induction l generalizing a with
  | nil =>
    cases hl
    simp only [List.nil_append, replay, hv]
  | cons w l ih =>
    cases hw : emitOutput a w with
    | error e => simp [replay, hw] at hl
    | ok a' =>
      simp only [replay, hw] at hl
      simp only [List.cons_append, replay, hw, ih hl]

end Sys2Proof.Safety

namespace Sys2Proof.Proofs

open Sys2Proof.Machine Sys2Proof.Safety

/-- Settles O59: an output extends the log by its word and the replay by that word's transition. -/
theorem stepKeepsAgentFollowsOutlog : Obligations.StepKeepsAgentFollowsOutlog :=
  fun _ _ _ => step_keeps_of_output_keeps (fun _ _ hs => hs) fun _ _ _ => replay_concat

end Sys2Proof.Proofs

/-! ## The heading and the pending input between moves (R196, R203) -/

namespace Sys2Proof.Machine

/-- R203: a turn, either way, goes from vertical to horizontal and back. -/
theorem Heading.code_rotate_mod_two (h : Heading) (d : TurnDir) :
    Heading.code (Heading.rotate h d) % 2 = (Heading.code h + 1) % 2 := by
  cases h <;> cases d <;> rfl

end Sys2Proof.Machine

namespace Sys2Proof.Safety

open Sys2Proof.Machine

variable {s : State} {a : Agent} {v : Word}

/-- R203: a move turns the heading, a paint does not. -/
theorem headingMatchesMoves_of_output (hs : HeadingMatchesMoves s) (h : emitOutput s.agent v = .ok a) :
    HeadingMatchesMoves { s with agent := a, outlog := s.outlog ++ [v] } := by
  obtain ⟨hphase, hheading⟩ := hs
  refine ⟨phaseMatchesOutputs_of_output hphase h, ?_⟩
  simp only [List.length_append, List.length_singleton]
  rcases emitOutput_cases_of_phaseMatchesOutputs hphase h with ⟨heven, rfl⟩ | ⟨hodd, p, -, rfl⟩
  · rw [paintTransition_heading]; omega
  · have := Heading.code_rotate_mod_two s.agent.heading (turnDir v)
    dsimp only
    omega

/-- R196: only a Turn transition ends in the Paint phase, and it sets the pending input to the colour of the new cell. -/
theorem pendingIsColourHere_of_output (h : emitOutput s.agent v = .ok a) :
    PendingIsColourHere { s with agent := a, outlog := s.outlog ++ [v] } := by
  intro hpaint _
  cases hp : s.agent.phase with
  | paint => exact absurd (hpaint.trans hp.symm) (emitOutput_phase_ne h)
  | turn => exact emitOutput_pending_of_turn hp h

end Sys2Proof.Safety

namespace Sys2Proof.Proofs

open Sys2Proof.Machine Sys2Proof.Safety

/-- Settles O57: the heading turns once in every pair of outputs. -/
theorem stepKeepsHeadingMatchesMoves : Obligations.StepKeepsHeadingMatchesMoves :=
  fun _ _ => step_keeps_of_output_keeps (fun _ _ hs => hs) fun _ _ _ => headingMatchesMoves_of_output

/-- Settles O58: an output that ends in the Paint phase sets the pending input so itself, whatever was before. -/
theorem stepKeepsPendingIsColourHere : Obligations.StepKeepsPendingIsColourHere :=
  fun _ _ => step_keeps_of_output_keeps (fun _ _ hs => hs) fun _ _ _ _ => pendingIsColourHere_of_output

end Sys2Proof.Proofs

/-! ## Decoding a word (R71 to R76, R83 to R86) -/

namespace Sys2Proof.Laws

variable {w v : Word} {i : Instr} {n : Nat}

/-- R75: a digit in 0 to 2 is the digit of the mode it selects. -/
theorem digit_modeOf {k : Nat} (h : digitAt (k + 1) n ≤ 2) : (modeOf k n).digit = digitAt (k + 1) n := by
  unfold modeOf
  generalize digitAt (k + 1) n = d at *
  interval_cases d <;> rfl

theorem digit_inj {m m' : Mode} : m.digit = m'.digit ↔ m = m' := by
  refine ⟨fun h => ?_, congrArg _⟩
  have := congrArg Mode.ofDigit? h
  rwa [ofDigit?_digit, ofDigit?_digit, Option.some_inj] at this

theorem modeOf_eq_iff {k : Nat} {m : Mode} (h : digitAt (k + 1) n ≤ 2) : modeOf k n = m ↔ digitAt (k + 1) n = m.digit := by
  rw [← digit_inj, digit_modeOf h]

/-- R85: the two checks that a decoded word has passed. -/
theorem decode_eq_ok_iff :
    decode w = .ok i ↔ 0 ≤ w.val ∧
      instrOfOpcode (w.val.toNat % 100) (modeOf 1 w.val.toNat) (modeOf 2 w.val.toNat) (modeOf 3 w.val.toNat) = some i ∧
        ∀ k, 2 ≤ k → digitAt k w.val.toNat ≤ 2 := by
  rcases lt_or_ge w.val 0 with hneg | hpos
  · simp [decode_of_neg hneg, not_le.2 hneg]
  · rw [decode_of_nonneg hpos, ← modeDigitsOk_word]
    cases instrOfOpcode (w.val.toNat % 100) (modeOf 1 w.val.toNat) (modeOf 2 w.val.toNat) (modeOf 3 w.val.toNat) with
    | none => simp
    | some j => cases modeDigitsOk modeDigitFuel (w.val.toNat / 100) <;> simp [hpos]

/-- R82, R222: the opcode check, and the sign, come first. -/
theorem decode_eq_unknownOpcode_iff :
    decode w = .error (.unknownOpcode v) ↔
      v = w ∧ (w.val < 0 ∨ w.val.toNat % 100 ∉ [1, 2, 3, 4, 5, 6, 7, 8, 9, 99]) := by
  rcases lt_or_ge w.val 0 with hneg | hpos
  · simp [decode_of_neg hneg, hneg, eq_comm]
  · rw [decode_of_nonneg hpos,
      ← instrOfOpcode_eq_none (m1 := modeOf 1 w.val.toNat) (m2 := modeOf 2 w.val.toNat) (m3 := modeOf 3 w.val.toNat)]
    cases instrOfOpcode (w.val.toNat % 100) (modeOf 1 w.val.toNat) (modeOf 2 w.val.toNat) (modeOf 3 w.val.toNat) with
    | none => simp [eq_comm]
    | some j => cases modeDigitsOk modeDigitFuel (w.val.toNat / 100) <;> simp [not_lt.2 hpos]

/-- R83, R223: the mode digits are checked of a word with a legal opcode. -/
theorem decode_eq_malformedModeDigit_iff :
    decode w = .error (.malformedModeDigit v) ↔
      v = w ∧ 0 ≤ w.val ∧ w.val.toNat % 100 ∈ [1, 2, 3, 4, 5, 6, 7, 8, 9, 99] ∧ ∃ k, 2 ≤ k ∧ 2 < digitAt k w.val.toNat := by
  rcases lt_or_ge w.val 0 with hneg | hpos
  · simp [decode_of_neg hneg, not_le.2 hneg]
  · have hdigits : (∃ k, 2 ≤ k ∧ 2 < digitAt k w.val.toNat) ↔ modeDigitsOk modeDigitFuel (w.val.toNat / 100) = false := by
      rw [← Bool.not_eq_true, modeDigitsOk_word]
      push Not
      rfl
    rw [decode_of_nonneg hpos, hdigits, ← not_not (a := _ ∈ _),
      ← instrOfOpcode_eq_none (m1 := modeOf 1 w.val.toNat) (m2 := modeOf 2 w.val.toNat) (m3 := modeOf 3 w.val.toNat)]
    cases instrOfOpcode (w.val.toNat % 100) (modeOf 1 w.val.toNat) (modeOf 2 w.val.toNat) (modeOf 3 w.val.toNat) with
    | none => simp
    | some j => cases modeDigitsOk modeDigitFuel (w.val.toNat / 100) <;> simp [hpos, eq_comm]

theorem operandCount_le (i : Instr) : i.operandCount ≤ 3 := by cases i <;> simp [Instr.operandCount]

/-- R74, R76: the modes of an instruction are the first of three exactly when each is the one at its place. -/
theorem modes_eq_take_map_range_iff {f : Nat → Mode} :
    i.modes = ((List.range 3).map f).take i.operandCount ↔ ∀ k m, i.modes[k]? = some m → f k = m := by
  have hcount := operandCount_le i
  constructor
  · intro h k m hk
    have hlt : k < i.operandCount := modes_length i ▸ (List.getElem?_eq_some_iff.1 hk).1
    rw [h, List.getElem?_take, if_pos hlt, List.getElem?_map, List.getElem?_range (by omega)] at hk
    exact Option.some_inj.1 hk
  · intro h
    refine List.ext_getElem (by simpa [modes_length] using hcount) fun k hk _ => ?_
    rw [List.getElem_take, List.getElem_map, List.getElem_range, h k _ (List.getElem?_eq_getElem hk)]

/-- R71 to R76, R85: what decodes to an instruction, digit by digit. -/
theorem decode_eq_ok_iff_digits :
    decode w = .ok i ↔ 0 ≤ w.val ∧ w.val.toNat % 100 = i.opcode ∧ (∀ k, 2 ≤ k → digitAt k w.val.toNat ≤ 2) ∧
      ∀ k m, i.modes[k]? = some m → digitAt (k + 2) w.val.toNat = m.digit := by
  have hmodes := modes_eq_take_map_range_iff (i := i) (f := fun k => modeOf (k + 1) w.val.toNat)
  have hthree : (List.range 3).map (fun k => modeOf (k + 1) w.val.toNat) =
      [modeOf 1 w.val.toNat, modeOf 2 w.val.toNat, modeOf 3 w.val.toNat] := rfl
  rw [decode_eq_ok_iff, instrOfOpcode_eq_some, ← hthree, hmodes, eq_comm (a := i.opcode), and_assoc, and_comm (b := ∀ k, _)]
  refine and_congr_right fun _ => and_congr_right fun _ => and_congr_right fun hdigits => ?_
  exact forall₃_congr fun k m _ => modeOf_eq_iff (hdigits (k + 2) (by omega))

end Sys2Proof.Laws

namespace Sys2Proof.Proofs

/-- Settles O4: an opcode's operation carries the modes read off the digits, and a mode is read off its own digit alone. -/
theorem decodeIsTheDigitReading : Obligations.DecodeIsTheDigitReading :=
  fun _ _ => Laws.decode_eq_ok_iff_digits

/-- Settles O5: the sign and the opcode are checked before the digits. -/
theorem unknownOpcodeExactly : Obligations.UnknownOpcodeExactly :=
  fun _ _ => Laws.decode_eq_unknownOpcode_iff

/-- Settles O6: with a legal opcode, only the digit check is left to fail. -/
theorem malformedModeDigitExactly : Obligations.MalformedModeDigitExactly :=
  fun _ _ => Laws.decode_eq_malformedModeDigit_iff

/-- Settles O1: the ten words evaluated. -/
theorem decodeReadsWordsOfTheTable : Obligations.DecodeReadsWordsOfTheTable := by
  unfold Obligations.DecodeReadsWordsOfTheTable
  decide

end Sys2Proof.Proofs

/-! ## Encoded words and lines of code (R70, R84, R88) -/

namespace Sys2Proof.Laws

variable {w : Word} {i : Instr}

/-- R71: the digit fields of an opcode cell, for every operation. -/
theorem encoding (i : Instr) : Encoding.Statement i := by
  cases i with
  | add => exact Encoding.add _ _ _
  | multiply => exact Encoding.multiply _ _ _
  | input => exact Encoding.input _
  | output => exact Encoding.output _
  | jumpIfTrue => exact Encoding.jumpIfTrue _ _
  | jumpIfFalse => exact Encoding.jumpIfFalse _ _
  | lessThan => exact Encoding.lessThan _ _ _
  | equals => exact Encoding.equals _ _ _
  | adjustRelativeBase => exact Encoding.adjustRelativeBase _
  | halt => exact Encoding.halt

@[simp] theorem encode_val_toNat (i : Instr) : (encode i).val.toNat = encodeNat i := rfl

/-- R88: an opcode cell decodes to its instruction. -/
theorem decode_encode (i : Instr) : decode (encode i) = .ok i := by
  obtain ⟨hop, hdigits, hmodes⟩ := encoding i
  refine decode_eq_ok_iff.2 ⟨Int.natCast_nonneg _, instrOfOpcode_eq_some.2 ⟨hop.symm, ?_⟩, modeDigitsOk_word _ |>.1 hdigits⟩
  rw [encode_val_toNat, hmodes, List.take_left' (modes_length i)]

/-- R71: the opcode and the consumed mode digits are the low digits of the opcode cell, and all it has. -/
theorem encodeNat_lt (i : Instr) : encodeNat i < 10 ^ (2 + i.operandCount) := by
  cases i with
  | add m1 m2 m3 | multiply m1 m2 m3 | lessThan m1 m2 m3 | equals m1 m2 m3 =>
    have := m1.digit_le; have := m2.digit_le; have := m3.digit_le; simp only [encodeNat, Instr.operandCount]; omega
  | jumpIfTrue m1 m2 | jumpIfFalse m1 m2 =>
    have := m1.digit_le; have := m2.digit_le; simp only [encodeNat, Instr.operandCount]; omega
  | input m1 | output m1 | adjustRelativeBase m1 =>
    have := m1.digit_le; simp only [encodeNat, Instr.operandCount]; omega
  | halt => decide

/-- The low digits of a number with a digit string put above them. -/
theorem digitAt_add_of_lt {k j low high : Nat} (hk : k < j) : digitAt k (low + 10 ^ j * high) = digitAt k low := by
  obtain ⟨d, rfl⟩ := Nat.exists_eq_add_of_lt hk
  simp only [digitAt]
  rw [show low + 10 ^ (k + d + 1) * high = low + 10 ^ k * (10 * (10 ^ d * high)) by ring,
    Nat.add_mul_div_left _ _ (Nat.pow_pos (by decide)), Nat.add_mul_mod_self_left]

/-- The digits of the string put above. -/
theorem digitAt_add_of_le {k j low high : Nat} (hlow : low < 10 ^ j) :
    digitAt (j + k) (low + 10 ^ j * high) = digitAt k high := by
  rw [digitAt, Nat.pow_add, ← Nat.div_div_eq_div_mul, Nat.add_mul_div_left _ _ (Nat.pow_pos (by decide)),
    Nat.div_eq_of_lt hlow, Nat.zero_add, digitAt]

/-- R84: the digit reading of the opcode cell is not changed by a valid digit string above its consumed digits. -/
theorem decode_of_unconsumed_digits {rest : Nat} (hrest : ∀ k, digitAt k rest ≤ 2)
    (hw : w.val = (encodeNat i + 10 ^ (2 + i.operandCount) * rest : Nat)) : decode w = .ok i := by
  have hn : w.val.toNat = encodeNat i + 10 ^ (2 + i.operandCount) * rest := by rw [hw, Int.toNat_natCast]
  obtain ⟨-, hop, hdigits, hmodes⟩ := decode_eq_ok_iff_digits.1 (decode_encode i)
  rw [encode_val_toNat] at hop hdigits hmodes
  rw [decode_eq_ok_iff_digits, hn]
  refine ⟨by rw [hw]; exact Int.natCast_nonneg _, ?_, fun k hk => ?_, fun k m hm => ?_⟩
  · rw [Nat.pow_add, Nat.mul_assoc, Nat.add_mul_mod_self_left, hop]
  · rcases lt_or_ge k (2 + i.operandCount) with hlt | hge
    · rw [digitAt_add_of_lt hlt]; exact hdigits k hk
    · obtain ⟨j, rfl⟩ := Nat.exists_eq_add_of_le hge
      rw [digitAt_add_of_le (encodeNat_lt i)]; exact hrest j
  · have hlt : k < i.operandCount := modes_length i ▸ (List.getElem?_eq_some_iff.1 hm).1
    rw [digitAt_add_of_lt (by omega)]; exact hmodes k m hm

/-- R70, R76: the cells of a line, and then more. -/
theorem decodeLine_encode_cons {raws : List Word} (rest : List Word) (h : raws.length = i.operandCount) :
    decodeLine (encode i :: (raws ++ rest)) = .ok (⟨i, raws⟩, rest) := by
  simp only [decodeLine, decode_encode]
  rw [if_pos (by rw [List.length_append]; omega), List.take_left' h, List.drop_left' h]

end Sys2Proof.Laws

namespace Sys2Proof.Proofs

/-- Settles O3: the digit reading sees the consumed digits as before and only valid digits above them. -/
theorem decodeIgnoresUnconsumedDigits : Obligations.DecodeIgnoresUnconsumedDigits :=
  fun _ _ _ => Laws.decode_of_unconsumed_digits

/-- Settles O2: the opcode cell decodes to the instruction, whose operand count says how many cells are the line's. -/
theorem lineDecodesFromItsCells : Obligations.LineDecodesFromItsCells :=
  fun _ rest => Laws.decodeLine_encode_cons rest

end Sys2Proof.Proofs

/-! ## A placed table word (log entry 6) -/

namespace Sys2Proof.Laws

variable {nbits : Nat} {i : Instr}

/-- R15: a number that is a `Word` is its own two's complement. -/
theorem wordOfBits_encodeNat (i : Instr) : wordOfBits (encodeNat i) = encode i := by
  have := encodeNat_le i
  simp only [wordOfBits, Nat.mod_eq_of_lt (show encodeNat i < 18446744073709551616 by omega)]
  rw [dif_pos (by omega)]
  rfl

/-- Log entry 6: the opcode cell stands lowest, and three more cells follow. -/
theorem tableCells_encodeNat (h : 64 ≤ nbits) (i : Instr) :
    ∃ raws : List Word, raws.length = 3 ∧ tableCells nbits (encodeNat i) = encode i :: raws := by
  have hlt : encodeNat i < 2 ^ nbits :=
    calc encodeNat i < 2 ^ 64 := by have := encodeNat_le i; omega
      _ ≤ 2 ^ nbits := Nat.pow_le_pow_right (by decide) h
  rw [tableCells, Nat.mod_eq_of_lt hlt, longestInstr, cellsOfBits, wordOfBits_encodeNat]
  exact ⟨_, rfl, rfl⟩

theorem decodeTableWord_encodeNat (h : 64 ≤ nbits) (i : Instr) : decodeTableWord nbits (encodeNat i) = some i := by
  obtain ⟨raws, hlen, hcells⟩ := tableCells_encodeNat h i
  have hcount : i.operandCount ≤ raws.length := hlen ▸ operandCount_le i
  simp only [decodeTableWord, hcells, decodeLine, decode_encode, if_pos hcount]

end Sys2Proof.Laws

namespace Sys2Proof.Machine

variable {s : State} {i : Instr} {nbits : Nat}

theorem step_of_fetchDecode (hr : s.runState = .running) (hf : fetchDecode s = .ok i) : step s = exec i s := by
  simp only [step, hr, hf]

/-- The first of the cells stored from an address on is read there. -/
theorem Memory.read_storeCells_cons (m : Memory) (a : Addr) (w : Word) (ws : List Word) :
    (m.storeCells a.val (w :: ws)).read a = w := by
  rw [Memory.storeCells, dif_pos a.inAddr, Memory.read_storeCells_below _ _ (Nat.lt_succ_self _), Memory.read_write_same]

theorem fetchDecode_withFetchWord (h : 64 ≤ nbits) : fetchDecode (s.withFetchWord nbits (encodeNat i)) = .ok i := by
  obtain ⟨raws, -, hcells⟩ := Laws.tableCells_encodeNat h i
  rw [fetchDecode, withFetchWord_mem, withFetchWord_ip, hcells, Memory.read_storeCells_cons, Laws.decode_encode]

end Sys2Proof.Machine

namespace Sys2Proof.Proofs

open Sys2Proof.Machine

/-- Settles O7: the opcode cell is the first cell stored at `ip`, and the later ones leave it. -/
theorem placedWordRunsNext : Obligations.PlacedWordRunsNext :=
  fun s i _ h => ⟨Laws.decodeTableWord_encodeNat h i,
    step_of_fetchDecode (withFetchWord_runState s _ _) (fetchDecode_withFetchWord h)⟩

end Sys2Proof.Proofs

/-! ## The canonical form of the two maps over a step (log entries 1 and 9) -/

namespace Sys2Proof.Machine

variable {s t : State} {i : Instr}

theorem instrResult_canonicalMaps (h : instrResult i s = .ok t) (hs : Safety.CanonicalMaps s) : Safety.CanonicalMaps t := by
  obtain ⟨hmem, hpaint⟩ := hs
  rcases instrResult_cases h with
    ⟨d, v, _, rfl⟩ | ⟨_, _, _, -, rfl⟩ | ⟨_, _, _, _, -, ha, rfl⟩ | ⟨_, rfl⟩ | ⟨-, rfl⟩
  · exact ⟨Memory.write_wf d v hmem, hpaint⟩
  · exact ⟨hmem, hpaint⟩
  · exact ⟨hmem, emitOutput_paint_wf hpaint ha⟩
  · exact ⟨hmem, hpaint⟩
  · exact ⟨hmem, hpaint⟩

end Sys2Proof.Machine

namespace Sys2Proof.Proofs

open Sys2Proof.Machine

/-- Settles O52: a condition touches neither map; an instruction writes one cell or paints one, and both operations keep the order. -/
theorem stepKeepsCanonicalMaps : Obligations.StepKeepsCanonicalMaps := by
  intro s t hs h
  rcases step_cases h with ⟨c, rfl⟩ | ⟨i, -, hi⟩
  · exact hs
  · exact instrResult_canonicalMaps hi hs

end Sys2Proof.Proofs

/-! ## A canonical list is known by what it reads (log entries 1 and 9) -/

namespace Sys2Proof.Machine

section Assoc
variable {κ β : Type} [DecidableEq κ] {m : List (κ × β)} {k : κ} {v : β}

theorem mem_of_assocFind_eq_some (h : assocFind k m = some v) : (k, v) ∈ m := by
  induction m with
  | nil => cases h
  | cons e rest ih =>
    simp only [assocFind] at h
    split at h
    · next hk => cases h; cases hk; exact List.mem_cons_self
    · exact List.mem_cons_of_mem _ (ih h)

/-- With no key twice, a listed pair is the one that is found. -/
theorem assocFind_eq_some_iff_mem (hm : (m.map Prod.fst).Nodup) : assocFind k m = some v ↔ (k, v) ∈ m := by
  refine ⟨mem_of_assocFind_eq_some, fun h => ?_⟩
  cases hf : assocFind k m with
  | none => exact absurd rfl (assocFind_eq_none.1 hf _ h)
  | some u =>
    cases List.inj_on_of_nodup_map hm (mem_of_assocFind_eq_some hf) h rfl
    rfl

end Assoc

/-- A canonical memory lists exactly the cells that read as something else than 0, with what they read as. -/
theorem Memory.mem_iff_read {m : Memory} (hm : m.wf) (e : Nat × Word) :
    e ∈ m ↔ ∃ a : Addr, a.val = e.1 ∧ m.read a = e.2 ∧ e.2 ≠ Memory.unlisted := by
  have hnodup : (m.map Prod.fst).Nodup := List.pairwise_map.2 (hm.1.imp fun h => Nat.ne_of_lt h)
  constructor
  · intro he
    obtain ⟨haddr, hne⟩ := hm.2 e he
    exact ⟨⟨e.1, haddr⟩, rfl, by rw [Memory.read, (assocFind_eq_some_iff_mem hnodup).2 he]; rfl, hne⟩
  · rintro ⟨a, ha, hread, hne⟩
    rw [Memory.read, ha] at hread
    cases hf : assocFind e.1 m with
    | none => rw [hf] at hread; exact absurd hread.symm hne
    | some v =>
      rw [hf] at hread
      cases hread
      exact mem_of_assocFind_eq_some hf

/-- Log entry 1: reading alike, the two list the same cells, and the order of the addresses leaves one list for them. -/
theorem Memory.eq_of_read_eq {m n : Memory} (hm : m.wf) (hn : n.wf) (h : ∀ a, m.read a = n.read a) : m = n := by
  have hmem : ∀ e, e ∈ m ↔ e ∈ n := fun e => by simp only [Memory.mem_iff_read hm, Memory.mem_iff_read hn, h]
  have hlt : ∀ e f : Nat × Word, e.1 < f.1 → e ≠ f := fun e f hef heq => Nat.ne_of_lt hef (congrArg Prod.fst heq)
  have hperm : m.Perm n :=
    (List.perm_ext_iff_of_nodup (hm.1.imp fun h => hlt _ _ h) (hn.1.imp fun h => hlt _ _ h)).2 hmem
  exact hperm.eq_of_pairwise (fun e f _ _ hef hfe => absurd hef (Nat.lt_asymm hfe)) hm.1 hn.1

theorem PaintMap.colour_of_not_mem_keys {m : PaintMap} {p : Coord} (h : p ∉ m.keys) : m.colour p = Word.zero := by
  have hnone : assocFind p m = none := assocFind_eq_none.2 fun e he hp => h (List.mem_map.2 ⟨e, he, hp⟩)
  rw [PaintMap.colour, hnone]
  rfl

theorem PaintMap.colour_of_mem {m : PaintMap} {p : Coord} {w : Word} (hm : m.wf) (h : (p, w) ∈ m) : m.colour p = w := by
  rw [PaintMap.colour, (assocFind_eq_some_iff_mem (PaintMap.keys_nodup hm)).2 h]
  rfl

end Sys2Proof.Machine

namespace Sys2Proof.Proofs

open Sys2Proof.Machine

/-- Settles O9: a canonical memory is the one rising list of the cells that read as something else than 0. -/
theorem canonicalMemoriesReadingAlikeAreEqual : Obligations.CanonicalMemoriesReadingAlikeAreEqual :=
  fun _ _ => Memory.eq_of_read_eq

/-- Settles O30: the Turn transition sets `pending` to the colour of the new cell, which is read off the paint map. -/
theorem turnTransitionFeedsBackTheColour : Obligations.TurnTransitionFeedsBackTheColour := by
  intro a b v hp h
  have hpending := emitOutput_pending_of_turn hp h
  refine ⟨?_, ?_, hpending, fun hkey => ?_, fun w hwf hw => hpending.trans (PaintMap.colour_of_mem hwf hw)⟩
  · cases hb : b.phase with
    | paint => rfl
    | turn => exact absurd (hb.trans hp.symm) (emitOutput_phase_ne h)
  · rcases emitOutput_eq_ok.1 h with ⟨ht, -⟩ | ⟨-, p, -, rfl⟩
    · cases hp.symm.trans ht
    · rfl
  · rw [hpending, PaintMap.colour_of_not_mem_keys hkey]
    rfl

end Sys2Proof.Proofs

/-! ## The run state, the status fields and the effects of a step (R24, R100, R107, R226) -/

namespace Sys2Proof.Machine

variable {s t : State} {i : Instr} {c : Condition}

theorem step_of_fetchDecode_error (hr : s.runState = .running) (hf : fetchDecode s = .error c) :
    step s = .next (takeFatal c s) := by
  simp only [step, hr, hf]

/-- R24: only a condition sets the cause and the info. -/
theorem instrResult_cause_faultInfo (h : instrResult i s = .ok t) : t.cause = s.cause ∧ t.faultInfo = s.faultInfo := by
  rcases instrResult_cases h with
    ⟨_, _, _, rfl⟩ | ⟨_, _, _, -, rfl⟩ | ⟨_, _, _, _, -, -, rfl⟩ | ⟨_, rfl⟩ | ⟨-, rfl⟩
  · exact ⟨rfl, rfl⟩
  · exact ⟨rfl, rfl⟩
  · exact ⟨rfl, rfl⟩
  · exact ⟨rfl, rfl⟩
  · exact ⟨rfl, rfl⟩

/-- R162: only Halt sets the run state. -/
theorem instrResult_runState_of_ne_halt (h : instrResult i s = .ok t) (hi : i ≠ .halt) : t.runState = s.runState := by
  rcases instrResult_cases h with
    ⟨_, _, _, rfl⟩ | ⟨_, _, _, -, rfl⟩ | ⟨_, _, _, _, -, -, rfl⟩ | ⟨_, rfl⟩ | ⟨hhalt, -⟩
  · rfl
  · rfl
  · rfl
  · rfl
  · exact absurd hhalt hi

theorem instrResult_halt (h : instrResult .halt s = .ok t) : t = { s with runState := .halted } := by
  cases h; rfl

theorem Memory.eq_of_read_write_ne {m : Memory} {a b : Addr} {v : Word} (h : (m.write a v).read b ≠ m.read b) : b = a := by
  by_contra hne
  exact h (Memory.read_write_other m hne v)

/-- R106: the next ip of a jump. -/
theorem jumpNext_eq_ok {taken : Bool} {g : Word} {n : Addr} :
    jumpNext taken g s = .ok n ↔ (taken = true ∧ (n.val : Int) = g.val) ∨ (taken = false ∧ n.val = s.ip.val + 3) := by
  cases taken with
  | true => simp [jumpNext, checkAddr_eq_ok]
  | false => simp [jumpNext, fallThrough_eq_ok]

theorem jumpNext_eq_error {taken : Bool} {g : Word} :
    jumpNext taken g s = .error c ↔ (taken = true ∧ ¬ InAddr g.val ∧ c = .invalidAddress g.val) ∨
      (taken = false ∧ 9223372036854775807 < s.ip.val + 3 ∧ c = .invalidAddress ((s.ip.val : Int) + 3)) := by
  cases taken with
  | true => simp [jumpNext, checkAddr_eq_error]
  | false => simp [jumpNext, fallThrough_eq_error]

/-- R106: where a jump that raises nothing leaves `ip`. -/
theorem jumpResult_ip {taken : Word → Bool} {m1 m2 : Mode} (h : jumpResult taken m1 m2 s = .ok t) :
    t.ip.val = s.ip.val + 3 ∨ ∃ v, srcOperand s 2 m2 = .ok v ∧ (t.ip.val : Int) = v.val := by
  obtain ⟨c, g, n, -, hg, hn, rfl⟩ := jumpResult_eq_ok.1 h
  rcases jumpNext_eq_ok.1 hn with ⟨-, hn⟩ | ⟨-, hn⟩
  · exact .inr ⟨g, hg, hn⟩
  · exact .inl hn

/-- R76, R106: an instruction other than Halt leaves `ip` past its own cells, or is a jump and leaves it at its target. -/
theorem instrResult_ip (h : instrResult i s = .ok t) (hi : i ≠ .halt) :
    t.ip.val = s.ip.val + i.length ∨
      ∃ m1 m2 v, (i = .jumpIfTrue m1 m2 ∨ i = .jumpIfFalse m1 m2) ∧ srcOperand s 2 m2 = .ok v ∧ (t.ip.val : Int) = v.val := by
  cases i with
  | add | multiply | lessThan | equals =>
    obtain ⟨_, _, _, _, _, -, -, -, -, hn, rfl⟩ := binaryResult_eq_ok.1 h
    exact .inl (fallThrough_eq_ok.1 hn)
  | input =>
    obtain ⟨_, _, -, hn, rfl⟩ := inputResult_eq_ok.1 h
    exact .inl (fallThrough_eq_ok.1 hn)
  | output =>
    obtain ⟨_, _, _, -, hn, -, rfl⟩ := outputResult_eq_ok.1 h
    exact .inl (fallThrough_eq_ok.1 hn)
  | jumpIfTrue m1 m2 => exact (jumpResult_ip h).imp_right fun ⟨v, hv, hip⟩ => ⟨m1, m2, v, .inl rfl, hv, hip⟩
  | jumpIfFalse m1 m2 => exact (jumpResult_ip h).imp_right fun ⟨v, hv, hip⟩ => ⟨m1, m2, v, .inr rfl, hv, hip⟩
  | adjustRelativeBase =>
    obtain ⟨_, _, _, -, -, hn, rfl⟩ := adjustRelativeBaseResult_eq_ok.1 h
    exact .inl (fallThrough_eq_ok.1 hn)
  | halt => exact absurd rfl hi

end Sys2Proof.Machine

namespace Sys2Proof.Proofs

open Sys2Proof.Machine

/-- Settles O34: the two ways a fetch ends in `Running`. -/
theorem stepRunsTheDecodedInstruction : Obligations.StepRunsTheDecodedInstruction :=
  fun _ hr => ⟨fun _ => step_of_fetchDecode hr, fun _ => step_of_fetchDecode_error hr⟩

/-- Settles O36: an instruction keeps `Running` unless it is Halt, which raises nothing; a condition leads to `Faulted`. -/
theorem runStateTransitions : Obligations.RunStateTransitions := by
  intro s t h
  obtain ⟨hr, ⟨i, hf, hi⟩ | ⟨c, hf, rfl⟩ | ⟨i, c, hf, hi, rfl⟩⟩ := step_eq_next.1 h
  · refine ⟨hr, ?_⟩
    by_cases hhalt : i = .halt
    · subst hhalt
      exact .inl ⟨hf, by rw [instrResult_halt hi]⟩
    · exact .inr (.inl ⟨i, hhalt, hf, .inl ((instrResult_runState_of_ne_halt hi hhalt).trans hr)⟩)
  · exact ⟨hr, .inr (.inr ⟨c, hf, rfl⟩)⟩
  · have hne : i ≠ .halt := by rintro rfl; cases hi
    exact ⟨hr, .inr (.inl ⟨i, hne, hf, .inr rfl⟩)⟩

/-- Settles O37: only a condition leads into `Faulted`, and it is taken in the state the step began in. -/
theorem faultsArePrecise : Obligations.FaultsArePrecise := by
  intro s t h ht
  rcases step_cases h with ⟨c, rfl⟩ | ⟨i, -, hi⟩
  · exact ⟨Condition.cause_ne_none c, rfl⟩
  · exact absurd ht (instrResult_not_faulted hi (by simp [running_of_step h]))

/-- Settles O53: a condition sets all three fields; an instruction begins in `Running` and leaves cause and info as they are there. -/
theorem stepKeepsStatusConsistent : Obligations.StepKeepsStatusConsistent := by
  intro s t ⟨hcause, hinfo⟩ h
  rcases step_cases h with ⟨c, rfl⟩ | ⟨i, -, hi⟩
  · simp [Safety.StatusConsistent]
  · have hs : s.runState ≠ .faulted := by simp [running_of_step h]
    have ht := instrResult_not_faulted hi hs
    obtain ⟨hc, hf⟩ := instrResult_cause_faultInfo hi
    rw [Safety.StatusConsistent, hc, hf]
    exact ⟨iff_of_false ht fun hne => hs (hcause.2 hne), fun _ => hinfo hs⟩

/-- Settles O38: by what a step can do; each clause but the one of its own effect has a premise that fails. -/
theorem oneEffectPerStep : Obligations.OneEffectPerStep := by
  intro s t h
  rcases step_cases h with ⟨c, rfl⟩ | ⟨i, -, hi⟩
  · simp
  · rcases instrResult_cases hi with
      ⟨d, v, _, rfl⟩ | ⟨_, _, _, -, rfl⟩ | ⟨_, _, _, _, -, -, rfl⟩ | ⟨_, rfl⟩ | ⟨-, rfl⟩
    · refine ⟨fun a b ha hb => ?_, by simp⟩
      exact (Memory.eq_of_read_write_ne ha).trans (Memory.eq_of_read_write_ne hb).symm
    · simp
    · simp
    · simp
    · simp

/-- Settles O39: a step that goes on took no condition and ran no Halt. -/
theorem nextIpIsPastTheInstructionOrTheTarget : Obligations.NextIpIsPastTheInstructionOrTheTarget := by
  intro s t i h hdecode ht
  rcases step_cases h with ⟨c, rfl⟩ | ⟨j, hf, hj⟩
  · cases ht
  · cases hdecode.symm.trans hf
    refine instrResult_ip hj ?_
    rintro rfl
    rw [instrResult_halt hj] at ht
    cases ht

end Sys2Proof.Proofs

/-! ## Operands by mode (R77, R78, R221) -/

namespace Sys2Proof.Machine

variable {s : State} {k : Nat} {a cell : Addr} {m : Mode}

/-- The raw value of an operand whose cell exists. -/
theorem rawOperand_of_cell (hcell : cell.val = s.ip.val + k) : rawOperand s k = .ok (s.mem.read cell) :=
  rawOperand_eq_ok.2 ⟨cell, hcell, rfl⟩

/-- R221: an operand whose cell would be past the top. -/
theorem rawOperand_of_top (h : 9223372036854775807 < s.ip.val + k) :
    rawOperand s k = .error (.invalidAddress ((s.ip.val : Int) + k)) :=
  rawOperand_eq_error.2 ⟨h, rfl⟩

theorem checkAddr_of_not_inAddr {n : Int} (h : ¬ InAddr n) : checkAddr n = .error (.invalidAddress n) :=
  checkAddr_eq_error.2 ⟨h, rfl⟩

end Sys2Proof.Machine

namespace Sys2Proof.Proofs

open Sys2Proof.Machine

/-- Settles O10: the operand cell is read, and then the address that the mode makes of it is checked and read. -/
theorem sourceOperandByMode : Obligations.SourceOperandByMode := by
  refine fun s k => ⟨fun cell hcell => ?_, fun m h => srcOperand_of_raw_error (rawOperand_of_top h) m⟩
  have hraw := rawOperand_of_cell hcell
  rw [srcOperand_immediate hraw, srcOperand_position hraw, srcOperand_relative hraw]
  refine ⟨rfl, fun a ha => ?_, fun h => ?_, fun a ha => ?_, fun h => ?_⟩
  · rw [checkAddr_eq_ok.2 ha]; rfl
  · rw [checkAddr_of_not_inAddr h]; rfl
  · rw [checkAddr_eq_ok.2 ha]; rfl
  · rw [checkAddr_of_not_inAddr h]; rfl

/-- Settles O11: the operand cell is read, and then the address that the mode makes of it is checked. -/
theorem destinationOperandByMode : Obligations.DestinationOperandByMode := by
  refine fun s k => ⟨fun cell hcell => ?_, fun m h => dstOperand_of_raw_error (rawOperand_of_top h) m⟩
  have hraw := rawOperand_of_cell hcell
  rw [dstOperand_relative hraw]
  refine ⟨fun m hm => ?_, fun a ha => checkAddr_eq_ok.2 ha, checkAddr_of_not_inAddr⟩
  have hdst : dstOperand s k m = checkAddr (s.mem.read cell).val := by
    rcases hm with rfl | rfl
    · exact dstOperand_position hraw
    · exact dstOperand_immediate hraw
  rw [hdst]
  exact ⟨fun a ha => checkAddr_eq_ok.2 ha, checkAddr_of_not_inAddr⟩

end Sys2Proof.Proofs

/-! ## What each instruction answers once its operands resolve (R120 to R123, R140, R141, R160 to R162, R180) -/

namespace Sys2Proof.Machine

variable {s t : State} {i : Instr} {c : Condition} {m1 m2 m3 : Mode} {a b r v : Word} {d n : Addr}

theorem exec_of_ok (h : instrResult i s = .ok t) : exec i s = .next t := exec_eq_next.2 (.inl h)

theorem exec_of_error (h : instrResult i s = .error c) (ht : t = takeFatal c s) : exec i s = .next t :=
  exec_eq_next.2 (.inr ⟨c, h, ht⟩)

/-- R106: a fall-through that would leave the addresses. -/
theorem fallThrough_of_top {len : Nat} (h : 9223372036854775807 < s.ip.val + len) :
    fallThrough s len = .error (.invalidAddress ((s.ip.val : Int) + len)) :=
  fallThrough_eq_error.2 ⟨h, rfl⟩

section Binary
variable {f : Word → Word → Except Condition Word}

theorem binaryResult_of_resolves (h : Safety.Resolves s m1 m2 m3 a b d) (hf : f a b = .ok r) (hn : n.val = s.ip.val + 4) :
    binaryResult f m1 m2 m3 s = .ok { s with mem := s.mem.write d r, ip := n } := by
  obtain ⟨ha, hb, hd⟩ := h
  exact binaryResult_eq_ok.2 ⟨a, b, d, r, n, ha, hb, hd, hf, fallThrough_eq_ok.2 hn, rfl⟩

theorem binaryResult_of_result_error (h : Safety.Resolves s m1 m2 m3 a b d) (hf : f a b = .error c) :
    binaryResult f m1 m2 m3 s = .error c := by
  obtain ⟨ha, hb, hd⟩ := h
  exact binaryResult_eq_error.2 (.inr ⟨a, ha, .inr ⟨b, hb, .inr ⟨d, hd, .inl hf⟩⟩⟩)

theorem binaryResult_of_top (h : Safety.Resolves s m1 m2 m3 a b d) (hf : f a b = .ok r)
    (hip : 9223372036854775807 < s.ip.val + 4) :
    binaryResult f m1 m2 m3 s = .error (.invalidAddress ((s.ip.val : Int) + 4)) := by
  obtain ⟨ha, hb, hd⟩ := h
  exact binaryResult_eq_error.2
    (.inr ⟨a, ha, .inr ⟨b, hb, .inr ⟨d, hd, .inr ⟨r, hf, fallThrough_of_top hip⟩⟩⟩⟩)

end Binary

theorem checkWord_of_not_inWord {x : Int} (h : ¬ InWord x) : checkWord x = .error (.arithmeticOverflow x) :=
  checkWord_eq_error.2 ⟨h, rfl⟩

theorem checkWord_of_inWord {x : Int} (h : InWord x) : checkWord x = .ok ⟨x, h⟩ := checkWord_eq_ok.2 rfl

/-- R124: what an instruction of the shape answers whose result is a checked exact integer. -/
theorem exec_of_checkWord {f : Word → Word → Except Condition Word} {x : Int}
    (hi : instrResult i s = binaryResult f m1 m2 m3 s) (h : Safety.Resolves s m1 m2 m3 a b d) (hf : f a b = checkWord x) :
    (∀ (r : Word) (n : Addr), r.val = x → n.val = s.ip.val + 4 →
      exec i s = .next { s with mem := s.mem.write d r, ip := n }) ∧
      (¬ InWord x → exec i s = .next { s with runState := .faulted, cause := .arithmeticOverflow, faultInfo := x }) ∧
      (InWord x → 9223372036854775807 < s.ip.val + 4 →
        exec i s = .next { s with runState := .faulted, cause := .invalidAddress, faultInfo := (s.ip.val : Int) + 4 }) := by
  refine ⟨fun r n hr hn => ?_, fun hx => ?_, fun hx hip => ?_⟩
  · exact exec_of_ok (hi.trans (binaryResult_of_resolves h (hf.trans (checkWord_eq_ok.2 hr)) hn))
  · exact exec_of_error (hi.trans (binaryResult_of_result_error h (hf.trans (checkWord_of_not_inWord hx)))) rfl
  · exact exec_of_error (hi.trans (binaryResult_of_top h (hf.trans (checkWord_of_inWord hx)) hip)) rfl

/-- R122: LessThan's result is 1 or 0 and never overflows. -/
theorem lessThanWords_eq (a b : Word) : lessThanWords a b = .ok (if a.val < b.val then .lit 1 else .lit 0) := by
  by_cases h : a.val < b.val
  · simp only [lessThanWords, wordLt, h, decide_true, if_true]; rfl
  · simp only [lessThanWords, wordLt, h, decide_false, if_false]; rfl

/-- R123: Equals' result is 1 or 0 and never overflows. -/
theorem equalsWords_eq (a b : Word) : equalsWords a b = .ok (if a.val = b.val then .lit 1 else .lit 0) := by
  by_cases h : a.val = b.val
  · simp only [equalsWords, wordEq, h, decide_true, if_true]; rfl
  · simp only [equalsWords, wordEq, h, decide_false, if_false]; rfl

theorem wordNonzero_eq_true : wordNonzero v = true ↔ v.val ≠ 0 := decide_eq_true_iff

theorem wordNonzero_eq_false : wordNonzero v = false ↔ v.val = 0 := by
  rw [← Bool.not_eq_true, wordNonzero_eq_true, not_not]

section Jump
variable {taken : Word → Bool} {cond target : Word}

theorem jumpResult_of_taken (hc : srcOperand s 1 m1 = .ok cond) (ht : srcOperand s 2 m2 = .ok target)
    (htaken : taken cond = true) (hn : (n.val : Int) = target.val) : jumpResult taken m1 m2 s = .ok { s with ip := n } :=
  jumpResult_eq_ok.2 ⟨cond, target, n, hc, ht, jumpNext_eq_ok.2 (.inl ⟨htaken, hn⟩), rfl⟩

/-- R106: what either jump answers once its operands resolve; the next ip that is not taken is not checked. -/
theorem exec_of_jump (hi : instrResult i s = jumpResult taken m1 m2 s) (hc : srcOperand s 1 m1 = .ok cond)
    (ht : srcOperand s 2 m2 = .ok target) :
    (taken cond = true → ∀ n : Addr, (n.val : Int) = target.val → exec i s = .next { s with ip := n }) ∧
      (taken cond = false → ∀ n : Addr, n.val = s.ip.val + 3 → exec i s = .next { s with ip := n }) ∧
      (taken cond = true → target.val < 0 →
        exec i s = .next { s with runState := .faulted, cause := .invalidAddress, faultInfo := target.val }) ∧
      (taken cond = false → 9223372036854775807 < s.ip.val + 3 →
        exec i s = .next { s with runState := .faulted, cause := .invalidAddress, faultInfo := (s.ip.val : Int) + 3 }) := by
  have herr {c : Condition} (h : jumpNext (taken cond) target s = .error c) : instrResult i s = .error c :=
    hi.trans (jumpResult_eq_error.2 (.inr ⟨cond, hc, .inr ⟨target, ht, h⟩⟩))
  refine ⟨fun h n hn => ?_, fun h n hn => ?_, fun h hneg => ?_, fun h hip => ?_⟩
  · exact exec_of_ok (hi.trans (jumpResult_of_taken hc ht h hn))
  · exact exec_of_ok (hi.trans (jumpResult_eq_ok.2 ⟨cond, target, n, hc, ht, jumpNext_eq_ok.2 (.inr ⟨h, hn⟩), rfl⟩))
  · exact exec_of_error (herr (jumpNext_eq_error.2 (.inl ⟨h, fun ha => not_le.2 hneg ha.1, rfl⟩))) rfl
  · exact exec_of_error (herr (jumpNext_eq_error.2 (.inr ⟨h, hip, rfl⟩))) rfl

end Jump

/-! What a transition of the agent raises (R199, R225). -/

/-- R195: a unit step changes one coordinate alone. -/
theorem Heading.dx_eq_zero_or_dy_eq_zero (h : Heading) : Heading.dx h = 0 ∨ Heading.dy h = 0 := by
  cases h <;> simp [Heading.dx, Heading.dy]

/-- R199, R225: a move raises `CoordinateOverflow` with the new coordinate that is no `Word`, which is one of the two. -/
theorem move_eq_error {p : Coord} {h : Heading} :
    Coord.move p h = .error c ↔ ∃ x : Int, c = .coordinateOverflow x ∧ ¬ InWord x ∧
      (x = p.x.val + Heading.dx h ∨ x = p.y.val + Heading.dy h) := by
  simp only [Coord.move, bind_eq_error, pure_ne_error, checkCoord_eq_error, checkCoord_eq_ok, and_false, exists_false, or_false]
  constructor
  · rintro (⟨hx, rfl⟩ | ⟨-, -, hy, rfl⟩)
    · exact ⟨_, rfl, hx, .inl rfl⟩
    · exact ⟨_, rfl, hy, .inr rfl⟩
  · rintro ⟨x, rfl, hx, rfl | rfl⟩
    · exact .inl ⟨hx, rfl⟩
    · have hdy : Heading.dy h ≠ 0 := fun h0 => hx (by rw [h0, add_zero]; exact p.y.inWord)
      have hdx : Heading.dx h = 0 := (Heading.dx_eq_zero_or_dy_eq_zero h).resolve_right hdy
      exact .inr ⟨p.x, by rw [hdx, add_zero], hx, rfl⟩

theorem emitOutput_eq_error {a : Agent} :
    emitOutput a v = .error c ↔ a.phase = .turn ∧ Coord.move a.pos (Heading.rotate a.heading (turnDir v)) = .error c := by
  unfold emitOutput
  cases a.phase with
  | paint => simp [pure_ne_error]
  | turn => simp only [Agent.turnTransition, bind_eq_error, pure_ne_error, and_false, exists_false, or_false, true_and]

theorem outputResult_of_emitOutput {a' : Agent} (hv : srcOperand s 1 m1 = .ok v) (hn : n.val = s.ip.val + 2)
    (ha : emitOutput s.agent v = .ok a') :
    outputResult m1 s = .ok { s with agent := a', outlog := s.outlog ++ [v], ip := n } :=
  outputResult_eq_ok.2 ⟨v, n, a', hv, fallThrough_eq_ok.2 hn, ha, rfl⟩

/-- R228: the next ip of an Output is checked before its transition. -/
theorem outputResult_of_top (hv : srcOperand s 1 m1 = .ok v) (hip : 9223372036854775807 < s.ip.val + 2) :
    outputResult m1 s = .error (.invalidAddress ((s.ip.val : Int) + 2)) :=
  outputResult_eq_error.2 (.inr ⟨v, hv, .inl (fallThrough_of_top hip)⟩)

theorem outputResult_of_emitOutput_error (hv : srcOperand s 1 m1 = .ok v) (hip : s.ip.val + 2 ≤ 9223372036854775807)
    (hc : emitOutput s.agent v = .error c) : outputResult m1 s = .error c :=
  outputResult_eq_error.2 (.inr ⟨v, hv, .inr ⟨⟨s.ip.val + 2, hip⟩, fallThrough_eq_ok.2 rfl, hc⟩⟩)

end Sys2Proof.Machine

namespace Sys2Proof.Proofs

open Sys2Proof.Machine

/-- Settles O13: the shape of the three-operand instructions with the checked sum. -/
theorem addWritesTheSum : Obligations.AddWritesTheSum :=
  fun _ _ _ _ _ _ _ h => exec_of_checkWord rfl h rfl

/-- Settles O14: the shape of the three-operand instructions with the checked product. -/
theorem multiplyWritesTheProduct : Obligations.MultiplyWritesTheProduct :=
  fun _ _ _ _ _ _ _ h => exec_of_checkWord rfl h rfl

/-- Settles O15: the shape of the three-operand instructions with a result that is always a `Word`. -/
theorem lessThanWritesOneOrZero : Obligations.LessThanWritesOneOrZero := by
  refine fun s m1 m2 m3 a b d h => ⟨fun n hn => ?_, fun hip => exec_of_error (binaryResult_of_top h (lessThanWords_eq a b) hip) rfl⟩
  have hexec := exec_of_ok (i := .lessThan m1 m2 m3) (binaryResult_of_resolves h (lessThanWords_eq a b) hn)
  exact ⟨fun hlt => by rw [hexec, if_pos hlt], fun hle => by rw [hexec, if_neg (not_lt.2 hle)]⟩

/-- Settles O16: the shape of the three-operand instructions with a result that is always a `Word`. -/
theorem equalsWritesOneOrZero : Obligations.EqualsWritesOneOrZero := by
  refine fun s m1 m2 m3 a b d h => ⟨fun n hn => ?_, fun hip => exec_of_error (binaryResult_of_top h (equalsWords_eq a b) hip) rfl⟩
  have hexec := exec_of_ok (i := .equals m1 m2 m3) (binaryResult_of_resolves h (equalsWords_eq a b) hn)
  exact ⟨fun heq => by rw [hexec, if_pos heq], fun hne => by rw [hexec, if_neg hne]⟩

/-- Settles O17: once the destination resolves, only the next ip is checked. -/
theorem inputWritesThePendingInput : Obligations.InputWritesThePendingInput :=
  fun _ _ d hd =>
    ⟨fun n hn => exec_of_ok (inputResult_eq_ok.2 ⟨d, n, hd, fallThrough_eq_ok.2 hn, rfl⟩),
      fun hip => exec_of_error (inputResult_eq_error.2 (.inr ⟨d, hd, fallThrough_of_top hip⟩)) rfl⟩

/-- Settles O18: the Paint transition of O29 within an Output that raises nothing. -/
theorem outputInPaintPhasePaints : Obligations.OutputInPaintPhasePaints := by
  intro s m1 v n hv hn hp
  obtain ⟨paint, hemit, hpaint⟩ := paintTransitionRecordsTheColour s.agent v hp
  exact ⟨paint, exec_of_ok (outputResult_of_emitOutput hv hn hemit), hpaint⟩

/-- Settles O19: the move to the cell given passes its check, and the Turn transition follows it. -/
theorem outputInTurnPhaseTurnsAndMoves : Obligations.OutputInTurnPhaseTurnsAndMoves := by
  rintro s m1 v n h p hv hn hp rfl hx hy
  exact exec_of_ok
    (outputResult_of_emitOutput hv hn (emitOutput_eq_ok.2 (.inr ⟨hp, p, move_eq_ok.2 ⟨hx, hy⟩, rfl⟩)))

/-- Settles O20: the next ip is checked first; a coordinate that is no `Word` is the one the move changes. -/
theorem outputConditionsAfterTheOperand : Obligations.OutputConditionsAfterTheOperand := by
  rintro s m1 v h hv rfl
  refine ⟨fun hip => exec_of_error (outputResult_of_top hv hip) rfl, fun hip hp hx => ?_, fun hip hp hy => ?_⟩
  · exact exec_of_error (outputResult_of_emitOutput_error hv hip
      (emitOutput_eq_error.2 ⟨hp, move_eq_error.2 ⟨_, rfl, hx, .inl rfl⟩⟩)) rfl
  · exact exec_of_error (outputResult_of_emitOutput_error hv hip
      (emitOutput_eq_error.2 ⟨hp, move_eq_error.2 ⟨_, rfl, hy, .inr rfl⟩⟩)) rfl

/-- Settles O21: the shape of the two jumps, taken on a nonzero condition. -/
theorem jumpIfTrueJumpsOnNonzero : Obligations.JumpIfTrueJumpsOnNonzero := by
  intro s m1 m2 c t hc ht
  simpa only [wordNonzero_eq_true, wordNonzero_eq_false] using exec_of_jump (i := .jumpIfTrue m1 m2) rfl hc ht

/-- Settles O22: the shape of the two jumps, taken on a zero condition. -/
theorem jumpIfFalseJumpsOnZero : Obligations.JumpIfFalseJumpsOnZero := by
  intro s m1 m2 c t hc ht
  simpa only [Bool.not_eq_true', Bool.not_eq_false', wordNonzero_eq_true, wordNonzero_eq_false] using
    exec_of_jump (i := .jumpIfFalse m1 m2) rfl hc ht

/-- Settles O23: the operand is resolved with the old `rb`; then the sum and then the next ip are checked. -/
theorem adjustRelativeBaseAddsTheOperand : Obligations.AdjustRelativeBaseAddsTheOperand :=
  fun _ _ v hv =>
    ⟨fun r n hr hn => exec_of_ok (adjustRelativeBaseResult_eq_ok.2 ⟨v, r, n, hv, hr, fallThrough_eq_ok.2 hn, rfl⟩),
      fun hw => exec_of_error (adjustRelativeBaseResult_eq_error.2 (.inr ⟨v, hv, .inl (checkWord_of_not_inWord hw)⟩)) rfl,
      fun hw hip => exec_of_error
        (adjustRelativeBaseResult_eq_error.2 (.inr ⟨v, hv, .inr ⟨_, checkWord_of_inWord hw, fallThrough_of_top hip⟩⟩)) rfl⟩

/-- Settles O24: Halt's one effect is committed. -/
theorem haltSetsTheRunStateAlone : Obligations.HaltSetsTheRunStateAlone :=
  fun _ => exec_of_ok rfl

/-- Settles O25: in each shape the condition of an operand comes before everything behind it. -/
theorem operandConditionsAreRaisedInOrder : Obligations.OperandConditionsAreRaisedInOrder := by
  intro s m1 m2 m3 e
  refine ⟨fun h1 => ?_, fun a ha h2 => ?_, fun a b ha hb h3 => ?_, fun hd => exec_of_error (inputResult_eq_error.2 (.inl hd)) rfl⟩
  · have hbin (f) : binaryResult f m1 m2 m3 s = .error e := binaryResult_eq_error.2 (.inl h1)
    have hjump (taken) : jumpResult taken m1 m2 s = .error e := jumpResult_eq_error.2 (.inl h1)
    simp only [List.forall_mem_cons]
    exact ⟨exec_of_error (hbin _) rfl, exec_of_error (hbin _) rfl, exec_of_error (hbin _) rfl, exec_of_error (hbin _) rfl,
      exec_of_error (outputResult_eq_error.2 (.inl h1)) rfl, exec_of_error (hjump _) rfl, exec_of_error (hjump _) rfl,
      exec_of_error (adjustRelativeBaseResult_eq_error.2 (.inl h1)) rfl, by simp⟩
  · have hbin (f) : binaryResult f m1 m2 m3 s = .error e := binaryResult_eq_error.2 (.inr ⟨a, ha, .inl h2⟩)
    have hjump (taken) : jumpResult taken m1 m2 s = .error e := jumpResult_eq_error.2 (.inr ⟨a, ha, .inl h2⟩)
    simp only [List.forall_mem_cons]
    exact ⟨exec_of_error (hbin _) rfl, exec_of_error (hbin _) rfl, exec_of_error (hbin _) rfl, exec_of_error (hbin _) rfl,
      exec_of_error (hjump _) rfl, exec_of_error (hjump _) rfl, by simp⟩
  · have hbin (f) : binaryResult f m1 m2 m3 s = .error e := binaryResult_eq_error.2 (.inr ⟨a, ha, .inr ⟨b, hb, .inl h3⟩⟩)
    simp only [List.forall_mem_cons]
    exact ⟨exec_of_error (hbin _) rfl, exec_of_error (hbin _) rfl, exec_of_error (hbin _) rfl, exec_of_error (hbin _) rfl, by simp⟩

end Sys2Proof.Proofs

/-! ## Frames (R107, R226): what an instruction leaves unchanged -/

namespace Sys2Proof.Machine

variable {s t : State} {c : Condition} {dst : Except Condition Addr} {d : Addr}

/-- The frame of an instruction that stores, `dst` its destination operand: it writes no register but `ip`, no agent state and no log,
and no cell but the destination; a condition it takes changes the status fields alone. -/
def StoreFrame (dst : Except Condition Addr) (s t : State) : Prop :=
  t.rb = s.rb ∧ t.agent = s.agent ∧ t.outlog = s.outlog ∧
    (∀ d, dst = .ok d → ∀ b, b ≠ d → t.mem.read b = s.mem.read b) ∧
    ((∀ d, dst ≠ .ok d) → ∀ b, t.mem.read b = s.mem.read b) ∧
    ((t.runState = s.runState ∧ t.cause = s.cause ∧ t.faultInfo = s.faultInfo) ∨
      (t.runState = .faulted ∧ t.cause ≠ .none ∧ t.ip = s.ip ∧ ∀ b, t.mem.read b = s.mem.read b))

theorem storeFrame_takeFatal (dst : Except Condition Addr) (c : Condition) (s : State) : StoreFrame dst s (takeFatal c s) := by
  simp [StoreFrame]

theorem storeFrame_write (hd : dst = .ok d) (v : Word) (n : Addr) :
    StoreFrame dst s { s with mem := s.mem.write d v, ip := n } := by
  refine ⟨rfl, rfl, rfl, fun d' hd' b hb => ?_, fun h => absurd hd (h d), .inl ⟨rfl, rfl, rfl⟩⟩
  cases hd.symm.trans hd'
  exact Memory.read_write_other _ hb v

/-- R120 to R123: the frame of the four, whatever they compute. -/
theorem storeFrame_of_commit_binaryResult {f : Word → Word → Except Condition Word} {m1 m2 m3 : Mode}
    (h : commit s (binaryResult f m1 m2 m3 s) = .next t) : StoreFrame (dstOperand s 3 m3) s t := by
  rcases commit_eq_next.1 h with hok | ⟨c, -, rfl⟩
  · obtain ⟨a, b, d, r, n, -, -, hd, -, -, rfl⟩ := binaryResult_eq_ok.1 hok
    exact storeFrame_write hd r n
  · exact storeFrame_takeFatal _ _ _

theorem storeFrame_of_commit_inputResult {m1 : Mode} (h : commit s (inputResult m1 s) = .next t) :
    StoreFrame (dstOperand s 1 m1) s t := by
  rcases commit_eq_next.1 h with hok | ⟨c, -, rfl⟩
  · obtain ⟨d, n, hd, -, rfl⟩ := inputResult_eq_ok.1 hok
    exact storeFrame_write hd _ n
  · exact storeFrame_takeFatal _ _ _

end Sys2Proof.Machine

namespace Sys2Proof.Proofs

open Sys2Proof.Machine

/-- Settles O26: the frame of the shape that the four share. -/
theorem arithmeticFrame : Obligations.ArithmeticFrame := by
  intro s t m1 m2 m3
  simp only [List.forall_mem_cons]
  exact ⟨storeFrame_of_commit_binaryResult, storeFrame_of_commit_binaryResult, storeFrame_of_commit_binaryResult,
    storeFrame_of_commit_binaryResult, by simp⟩

/-- Settles O27: Input stores too, to its own destination. -/
theorem inputFrame : Obligations.InputFrame :=
  fun _ _ _ => storeFrame_of_commit_inputResult

/-- Settles O28: the effects of the five, shape by shape; of them Halt alone raises no condition. -/
theorem nonStoringFrame : Obligations.NonStoringFrame := by
  intro s t m1 m2 i hi h
  rcases exec_eq_next.1 h with hok | ⟨c, herr, rfl⟩
  · simp only [List.mem_cons, List.not_mem_nil, or_false] at hi
    rcases hi with rfl | rfl | rfl | rfl | rfl
    · obtain ⟨v, n, a, -, -, -, rfl⟩ := outputResult_eq_ok.1 hok
      simp
    · obtain ⟨c, g, n, -, -, -, rfl⟩ := jumpResult_eq_ok.1 hok
      simp
    · obtain ⟨c, g, n, -, -, -, rfl⟩ := jumpResult_eq_ok.1 hok
      simp
    · obtain ⟨v, r, n, -, -, -, rfl⟩ := adjustRelativeBaseResult_eq_ok.1 hok
      simp
    · rw [instrResult_halt hok]
      simp
  · have hne : i ≠ .halt := by rintro rfl; cases herr
    simp [hne]

end Sys2Proof.Proofs

/-! ## A write of the next opcode cell (R62) -/

namespace Sys2Proof.Safety

open Sys2Proof.Machine

variable {s : State} {i : Instr} {d : Addr} {w : Word}

/-- R62: the next step fetches from `ip`, which is where the step wrote. -/
theorem nextFetches_of_write (hr : s.runState = .running) (hf : fetchDecode s = .ok i)
    (h : instrResult i s = .ok { s with mem := s.mem.write d w, ip := d }) : NextFetches s d w := by
  refine ⟨_, step_eq_next.2 ⟨hr, .inl ⟨i, hf, h⟩⟩, hr, rfl, Memory.read_write_same _ _ _, ?_⟩
  simp only [fetchDecode, Memory.read_write_same]

end Sys2Proof.Safety

namespace Sys2Proof.Proofs

open Sys2Proof.Machine Sys2Proof.Safety

/-- Settles O46: each of the five writes its result at the destination, which is the next ip too. -/
theorem writeIsSeenByTheNextFetch : Obligations.WriteIsSeenByTheNextFetch := by
  refine fun s hr => ⟨fun m1 m2 m3 a b d h hd => ⟨fun r hf hsum => ?_, fun r hf hprod => ?_, fun hf => ?_, fun hf => ?_⟩,
    fun m1 d hdst hd hf => ?_⟩
  · exact nextFetches_of_write hr hf (binaryResult_of_resolves h (checkWord_eq_ok.2 hsum) hd)
  · exact nextFetches_of_write hr hf (binaryResult_of_resolves h (checkWord_eq_ok.2 hprod) hd)
  · exact nextFetches_of_write hr hf (binaryResult_of_resolves h (lessThanWords_eq a b) hd)
  · exact nextFetches_of_write hr hf (binaryResult_of_resolves h (equalsWords_eq a b) hd)
  · exact nextFetches_of_write hr hf (inputResult_eq_ok.2 ⟨d, d, hdst, fallThrough_eq_ok.2 hd, rfl⟩)

end Sys2Proof.Proofs

/-! ## Headings, and the cells of consecutive moves (R195, R202, R203) -/

namespace Sys2Proof.Machine

/-- R195: an even heading code is a step up or down. -/
theorem Heading.step_of_code_even {h : Heading} (hc : Heading.code h % 2 = 0) :
    Heading.dx h = 0 ∧ (Heading.dy h = 1 ∨ Heading.dy h = -1) := by
  cases h with
  | north | south => simp [Heading.dx, Heading.dy]
  | east | west => cases hc

/-- R195: an odd heading code is a step left or right. -/
theorem Heading.step_of_code_odd {h : Heading} (hc : Heading.code h % 2 = 1) :
    (Heading.dx h = 1 ∨ Heading.dx h = -1) ∧ Heading.dy h = 0 := by
  cases h with
  | north | south => cases hc
  | east | west => simp [Heading.dx, Heading.dy]

/-- The cells of a walk by unit steps of alternating axes are distinct, the first and the last as they are an odd number of steps
apart. -/
theorem nodup_of_three_moves {p q r u : Coord} {h1 h2 h3 : Heading} (hpq : Coord.move p h1 = .ok q)
    (hqr : Coord.move q h2 = .ok r) (hru : Coord.move r h3 = .ok u)
    (h12 : Heading.code h2 % 2 = (Heading.code h1 + 1) % 2) (h23 : Heading.code h3 % 2 = (Heading.code h2 + 1) % 2) :
    [p, q, r, u].Nodup := by
  obtain ⟨hqx, hqy⟩ := move_eq_ok.1 hpq
  obtain ⟨hrx, hry⟩ := move_eq_ok.1 hqr
  obtain ⟨hux, huy⟩ := move_eq_ok.1 hru
  simp only [List.nodup_cons, List.mem_cons, List.not_mem_nil, or_false, not_or, not_false_eq_true, List.nodup_nil, and_true,
    coord_ext_iff]
  rcases Nat.mod_two_eq_zero_or_one (Heading.code h1) with hc | hc
  · have := Heading.step_of_code_even hc
    have := Heading.step_of_code_odd (h := h2) (by omega)
    have := Heading.step_of_code_even (h := h3) (by omega)
    omega
  · have := Heading.step_of_code_odd hc
    have := Heading.step_of_code_even (h := h2) (by omega)
    have := Heading.step_of_code_odd (h := h3) (by omega)
    omega

end Sys2Proof.Machine

namespace Sys2Proof.Safety

open Sys2Proof.Machine

/-- R204: a (paint, turn) pair from the Paint phase turns and moves the agent once and ends in the Paint phase. -/
theorem replay_pair {a b : Agent} {p t : Word} (ha : a.phase = .paint) (h : replay a [p, t] = .ok b) :
    b.phase = .paint ∧ b.heading = Heading.rotate a.heading (turnDir t) ∧ Coord.move a.pos b.heading = .ok b.pos := by
  simp only [replay, emitOutput_of_paint ha] at h
  cases ht : emitOutput (Agent.paintTransition a p) t with
  | error c => simp [ht] at h
  | ok b' =>
    simp only [ht, Except.ok.injEq] at h
    subst h
    rcases emitOutput_eq_ok.1 ht with ⟨hp, -⟩ | ⟨-, q, hmove, rfl⟩
    · cases hp
    · exact ⟨rfl, rfl, hmove⟩

end Sys2Proof.Safety

namespace Sys2Proof.Proofs

open Sys2Proof.Machine Sys2Proof.Safety

/-- Settles O32: the tables entry by entry. -/
theorem headingCodesStepsAndCycles : Obligations.HeadingCodesStepsAndCycles := by
  refine ⟨⟨rfl, rfl, rfl, rfl⟩, fun h => ?_, fun h => ?_, rfl, rfl, rfl, rfl, fun h d => ?_, fun h d e hne => ?_⟩
  · cases h <;> rfl
  · cases h <;> rfl
  · cases h <;> cases d <;> rfl
  · cases d with
    | left => cases e with
      | left => exact absurd rfl hne
      | right => cases h <;> rfl
    | right => cases e with
      | left => cases h <;> rfl
      | right => exact absurd rfl hne

/-- Settles O33: each pair is one move, and each turn changes the axis. -/
theorem fourDistinctPositionsOnThreeMoves : Obligations.FourDistinctPositionsOnThreeMoves := by
  intro a b c d p1 t1 p2 t2 p3 t3 ha hb hc hd
  obtain ⟨hbp, -, hab⟩ := replay_pair ha hb
  obtain ⟨hcp, hch, hbc⟩ := replay_pair hbp hc
  obtain ⟨-, hdh, hcd⟩ := replay_pair hcp hd
  exact nodup_of_three_moves hab hbc hcd (hch ▸ Heading.code_rotate_mod_two _ _) (hdh ▸ Heading.code_rotate_mod_two _ _)

end Sys2Proof.Proofs

/-! ## Runs (R109 to R111) -/

namespace Sys2Proof.Safety

open Sys2Proof.Machine

variable {s t : State} {image : List Word} {initInput : Word}

theorem reachable_run_one (h : Reachable image initInput s) : Reachable image initInput (run 1 s) := by
  by_cases hs : ∃ t, step s = .next t
  · obtain ⟨t, ht⟩ := hs
    rw [run_of_step ht]
    exact h.step ht
  · rwa [run_of_no_step (not_exists.1 hs)]

/-- R110: the states of a run, by the number of steps. -/
theorem reachable_iff_run : Reachable image initInput s ↔ ∃ n, s = run n (State.resetWith image initInput) := by
  constructor
  · intro h
    induction h with
    | reset => exact ⟨0, rfl⟩
    | step _ hstep ih =>
      obtain ⟨n, rfl⟩ := ih
      exact ⟨n + 1, by rw [run_add, run_of_step hstep]; rfl⟩
  · rintro ⟨n, rfl⟩
    induction n with
    | zero => exact .reset
    | succ n ih => rw [run_add]; exact reachable_run_one ih

/-- R111: where a run has ended, more steps leave it. -/
theorem run_eq_of_not_running {m n : Nat} (hmn : m ≤ n) (h : (run m s).runState ≠ .running) : run n s = run m s := by
  obtain ⟨k, rfl⟩ := Nat.exists_eq_add_of_le hmn
  rw [run_add, run_of_not_running h]

/-- A step to the same state is all that happens from there on. -/
theorem run_of_step_self (h : step s = .next s) (n : Nat) : run n s = s := by
  induction n with
  | zero => rfl
  | succ n ih => rw [run_of_step h, ih]

/-- R110: a jump taken to its own address. -/
theorem step_self_of_jump {i : Instr} {taken : Word → Bool} {m1 m2 : Mode} {c g : Word} (hr : s.runState = .running)
    (hf : fetchDecode s = .ok i) (hi : instrResult i s = jumpResult taken m1 m2 s) (hc : srcOperand s 1 m1 = .ok c)
    (hg : srcOperand s 2 m2 = .ok g) (htaken : taken c = true) (hip : g.val = s.ip.val) : step s = .next s :=
  step_eq_next.2 ⟨hr, .inl ⟨i, hf, hi.trans (jumpResult_of_taken hc hg htaken hip.symm)⟩⟩

end Sys2Proof.Safety

namespace Sys2Proof.Proofs

open Sys2Proof.Machine Sys2Proof.Safety

/-- Settles O47: of two ends of a run the one after more steps is the one after fewer, which the steps between leave. -/
theorem runIsAFunctionOfImageAndInitInput : Obligations.RunIsAFunctionOfImageAndInitInput := by
  refine fun image initInput => ⟨fun s => reachable_iff_run, fun s t hs ht hsr htr => ?_⟩
  obtain ⟨m, rfl⟩ := reachable_iff_run.1 hs
  obtain ⟨n, rfl⟩ := reachable_iff_run.1 ht
  have heq : run m (State.resetWith image initInput) = run n (State.resetWith image initInput) := by
    rcases Nat.le_total m n with hle | hle
    · exact (run_eq_of_not_running hle hsr).symm
    · exact run_eq_of_not_running hle htr
  exact ⟨heq, congrArg State.result heq⟩

/-- Settles O48: the jump sets `ip` to what it is and nothing else. -/
theorem jumpToItselfNeverEnds : Obligations.JumpToItselfNeverEnds := by
  intro s m1 m2 c g hr hc hg hip hjump
  have hstep : step s = .next s := by
    rcases hjump with ⟨hf, hne⟩ | ⟨hf, hzero⟩
    · exact step_self_of_jump hr hf rfl hc hg (wordNonzero_eq_true.2 hne) hip
    · exact step_self_of_jump hr hf rfl hc hg (by rw [wordNonzero_eq_false.2 hzero]; rfl) hip
  exact ⟨hstep, run_of_step_self hstep⟩

end Sys2Proof.Proofs

/-! ## CoordinateOverflow (R199, R225) -/

namespace Sys2Proof.Machine

variable {s t : State} {i : Instr} {c : Condition} {x : Int}

theorem srcOperand_ne_coordinateOverflow {k : Nat} {m : Mode} : srcOperand s k m ≠ .error (.coordinateOverflow x) := by
  intro h
  obtain ⟨n, -, hn⟩ := srcOperand_error h
  cases hn

theorem dstOperand_ne_coordinateOverflow {k : Nat} {m : Mode} : dstOperand s k m ≠ .error (.coordinateOverflow x) := by
  intro h
  obtain ⟨n, -, hn⟩ := dstOperand_error h
  cases hn

theorem fallThrough_ne_coordinateOverflow {len : Nat} : fallThrough s len ≠ .error (.coordinateOverflow x) := by
  simp [fallThrough_eq_error]

theorem checkWord_ne_coordinateOverflow {n : Int} : checkWord n ≠ .error (.coordinateOverflow x) := by
  simp [checkWord_eq_error]

theorem jumpNext_ne_coordinateOverflow {taken : Bool} {g : Word} : jumpNext taken g s ≠ .error (.coordinateOverflow x) := by
  simp [jumpNext_eq_error]

/-- R225: only an Output raises `CoordinateOverflow`, by the transition of its operand's value. -/
theorem instrResult_coordinateOverflow (h : instrResult i s = .error (.coordinateOverflow x)) :
    ∃ v, emitOutput s.agent v = .error (.coordinateOverflow x) := by
  have hbin {f m1 m2 m3} (hf : ∀ a b, f a b ≠ .error (.coordinateOverflow x)) :
      binaryResult f m1 m2 m3 s ≠ .error (.coordinateOverflow x) := by
    simp [binaryResult_eq_error, srcOperand_ne_coordinateOverflow, dstOperand_ne_coordinateOverflow,
      fallThrough_ne_coordinateOverflow, hf]
  have hjump {taken m1 m2} : jumpResult taken m1 m2 s ≠ .error (.coordinateOverflow x) := by
    simp [jumpResult_eq_error, srcOperand_ne_coordinateOverflow, jumpNext_ne_coordinateOverflow]
  cases i with
  | add | multiply => exact absurd h (hbin fun _ _ => checkWord_ne_coordinateOverflow)
  | lessThan | equals => exact absurd h (hbin fun _ _ => pure_ne_error)
  | input =>
    rcases inputResult_eq_error.1 h with h | ⟨-, -, h⟩
    · exact absurd h dstOperand_ne_coordinateOverflow
    · exact absurd h fallThrough_ne_coordinateOverflow
  | output =>
    rcases outputResult_eq_error.1 h with h | ⟨v, -, h | ⟨-, -, h⟩⟩
    · exact absurd h srcOperand_ne_coordinateOverflow
    · exact absurd h fallThrough_ne_coordinateOverflow
    · exact ⟨v, h⟩
  | jumpIfTrue | jumpIfFalse => exact absurd h hjump
  | adjustRelativeBase =>
    rcases adjustRelativeBaseResult_eq_error.1 h with h | ⟨v, -, h | ⟨-, -, h⟩⟩
    · exact absurd h srcOperand_ne_coordinateOverflow
    · exact absurd h checkWord_ne_coordinateOverflow
    · exact absurd h fallThrough_ne_coordinateOverflow
  | halt => cases h

/-- R85: decoding raises the two conditions on the instruction word alone. -/
theorem fetchDecode_ne_coordinateOverflow : fetchDecode s ≠ .error (.coordinateOverflow x) := by
  rw [fetchDecode]
  rcases lt_or_ge (s.mem.read s.ip).val 0 with hneg | hpos
  · simp [Laws.decode_of_neg hneg]
  · rw [Laws.decode_of_nonneg hpos]
    split
    · simp
    · split <;> simp

theorem eq_coordinateOverflow_of_cause (h : Condition.cause c = .coordinateOverflow) : ∃ x, c = .coordinateOverflow x := by
  cases c with
  | coordinateOverflow x => exact ⟨x, rfl⟩
  | invalidAddress | unknownOpcode | malformedModeDigit | arithmeticOverflow => cases h

/-- R225: a step that records `CoordinateOverflow` was about to move to a coordinate that is no `Word`. -/
theorem step_coordinateOverflow (hs : s.cause = .none) (h : step s = .next t) (ht : t.cause = .coordinateOverflow) :
    s.agent.phase = .turn ∧ ∃ (h : Heading) (x : Int), ¬ InWord x ∧
      (x = s.agent.pos.x.val + Heading.dx h ∨ x = s.agent.pos.y.val + Heading.dy h) := by
  obtain ⟨-, ⟨i, -, hi⟩ | ⟨c, hf, rfl⟩ | ⟨i, c, -, hi, rfl⟩⟩ := step_eq_next.1 h
  · rw [(instrResult_cause_faultInfo hi).1, hs] at ht
    cases ht
  · obtain ⟨x, rfl⟩ := eq_coordinateOverflow_of_cause ht
    exact absurd hf fetchDecode_ne_coordinateOverflow
  · obtain ⟨x, rfl⟩ := eq_coordinateOverflow_of_cause ht
    obtain ⟨v, hv⟩ := instrResult_coordinateOverflow hi
    obtain ⟨hphase, hmove⟩ := emitOutput_eq_error.1 hv
    obtain ⟨x, -, hx, hxy⟩ := move_eq_error.1 hmove
    exact ⟨hphase, _, x, hx, hxy⟩

end Sys2Proof.Machine

namespace Sys2Proof.Proofs

open Sys2Proof.Machine Sys2Proof.Safety

/-- Settles O49: a coordinate one unit beyond a `Word` is at least `2^63` units from the start, and the bound gives one move fewer. -/
theorem coordinateOverflowNeedsManyMoves : Obligations.CoordinateOverflowNeedsManyMoves := by
  intro s t hs hcause h ht
  obtain ⟨-, hdist⟩ := hs
  obtain ⟨-, d, x, hx, hxy⟩ := step_coordinateOverflow hcause h ht
  have hunit := Heading.unit_step d
  simp only [InWord] at hx
  omega

end Sys2Proof.Proofs

/-! ## Nothing reads `outlog` (R35, R200) -/

namespace Sys2Proof.Safety

open Sys2Proof.Machine

variable {s t u : State} {i : Instr} {c : Condition}

/-- R35: with another log an instruction that raises nothing does the same and logs the same words. -/
theorem instrResult_outlog_ok (h : instrResult i s = .ok t) :
    ∃ l, t.outlog = s.outlog ++ l ∧
      ∀ log, instrResult i { s with outlog := log } = .ok { t with outlog := log ++ l } := by
  cases i with
  | add | multiply | lessThan | equals =>
    obtain ⟨a, b, d, r, n, ha, hb, hd, hr, hn, rfl⟩ := binaryResult_eq_ok.1 h
    exact ⟨[], by simp, fun log => binaryResult_eq_ok.2 ⟨a, b, d, r, n, ha, hb, hd, hr, hn, by simp⟩⟩
  | input =>
    obtain ⟨d, n, hd, hn, rfl⟩ := inputResult_eq_ok.1 h
    exact ⟨[], by simp, fun log => inputResult_eq_ok.2 ⟨d, n, hd, hn, by simp⟩⟩
  | output =>
    obtain ⟨v, n, a, hv, hn, ha, rfl⟩ := outputResult_eq_ok.1 h
    exact ⟨[v], rfl, fun log => outputResult_eq_ok.2 ⟨v, n, a, hv, hn, ha, rfl⟩⟩
  | jumpIfTrue | jumpIfFalse =>
    obtain ⟨c, g, n, hc, hg, hn, rfl⟩ := jumpResult_eq_ok.1 h
    exact ⟨[], by simp, fun log => jumpResult_eq_ok.2 ⟨c, g, n, hc, hg, hn, by simp⟩⟩
  | adjustRelativeBase =>
    obtain ⟨v, r, n, hv, hr, hn, rfl⟩ := adjustRelativeBaseResult_eq_ok.1 h
    exact ⟨[], by simp, fun log => adjustRelativeBaseResult_eq_ok.2 ⟨v, r, n, hv, hr, hn, by simp⟩⟩
  | halt =>
    rw [instrResult_halt h]
    exact ⟨[], by simp, fun log => by simp [instrResult]⟩

/-- R35: with another log an instruction raises the same condition. -/
theorem instrResult_outlog_error (h : instrResult i s = .error c) (log : List Word) :
    instrResult i { s with outlog := log } = .error c := by
  cases i with
  | add | multiply | lessThan | equals => exact binaryResult_eq_error.2 ((binaryResult_eq_error (s := s)).1 h)
  | input => exact inputResult_eq_error.2 ((inputResult_eq_error (s := s)).1 h)
  | output => exact outputResult_eq_error.2 ((outputResult_eq_error (s := s)).1 h)
  | jumpIfTrue | jumpIfFalse => exact jumpResult_eq_error.2 ((jumpResult_eq_error (s := s)).1 h)
  | adjustRelativeBase => exact adjustRelativeBaseResult_eq_error.2 ((adjustRelativeBaseResult_eq_error (s := s)).1 h)
  | halt => cases h

/-- R35: with another log a step does the same and logs the same words. -/
theorem step_outlog (h : step s = .next t) :
    ∃ l, t.outlog = s.outlog ++ l ∧ ∀ log, step { s with outlog := log } = .next { t with outlog := log ++ l } := by
  obtain ⟨hr, ⟨i, hf, hi⟩ | ⟨c, hf, rfl⟩ | ⟨i, c, hf, hi, rfl⟩⟩ := step_eq_next.1 h
  · obtain ⟨l, hl, hlog⟩ := instrResult_outlog_ok hi
    exact ⟨l, hl, fun log => step_eq_next.2 ⟨hr, .inl ⟨i, hf, hlog log⟩⟩⟩
  · refine ⟨[], by simp, fun log => step_eq_next.2 ⟨hr, .inr (.inl ⟨c, hf, ?_⟩)⟩⟩
    rw [List.append_nil]; rfl
  · refine ⟨[], by simp, fun log => step_eq_next.2 ⟨hr, .inr (.inr ⟨i, c, hf, instrResult_outlog_error hi log, ?_⟩)⟩⟩
    rw [List.append_nil]; rfl

theorem step_agreeButOutlog (hsu : AgreeButOutlog s u) (h : step s = .next t) :
    ∃ v, step u = .next v ∧ AgreeButOutlog t v ∧ ∃ l, t.outlog = s.outlog ++ l ∧ v.outlog = u.outlog ++ l := by
  obtain ⟨l, hl, hlog⟩ := step_outlog h
  have hu := hlog u.outlog
  rw [hsu] at hu
  exact ⟨_, hu, rfl, l, hl, rfl⟩

theorem agreeButOutlog_runState (h : AgreeButOutlog s u) : s.runState = u.runState := (congrArg State.runState h :)

theorem run_agreeButOutlog (hsu : AgreeButOutlog s u) (n : Nat) : AgreeButOutlog (run n s) (run n u) := by
  induction n generalizing s u with
  | zero => exact hsu
  | succ n ih =>
    by_cases hr : s.runState = .running
    · obtain ⟨t, ht⟩ := exists_step_of_running hr
      obtain ⟨v, hv, htv, -⟩ := step_agreeButOutlog hsu ht
      rw [run_of_step ht, run_of_step hv]
      exact ih htv
    · rw [run_of_not_running hr, run_of_not_running (agreeButOutlog_runState hsu ▸ hr)]
      exact hsu

/-- R101: where no step is enabled, what a step answers depends on the run state alone. -/
theorem step_fault_agreeButOutlog (hsu : AgreeButOutlog s u) {f : Fault} (h : step s = .fault f) : step u = .fault f := by
  have hr := agreeButOutlog_runState hsu
  cases hs : s.runState with
  | running =>
    obtain ⟨t, ht⟩ := exists_step_of_running hs
    rw [ht] at h
    cases h
  | halted | faulted =>
    rw [step, hs] at h
    rw [step, ← hr, hs]
    exact h

/-- R13, R111: what the block reports does not look at the log. -/
theorem statusOutputs_agreeButOutlog (h : AgreeButOutlog s u) : s.statusOutputs = u.statusOutputs :=
  (congrArg State.statusOutputs h :)

theorem result_agreeButOutlog (h : AgreeButOutlog s u) : s.result = u.result :=
  (congrArg State.result h :)

end Sys2Proof.Safety

namespace Sys2Proof.Proofs

open Sys2Proof.Machine Sys2Proof.Safety

/-- Settles O60: each step keeps the agreement, so a run does, and the reports look at the fields agreed on. -/
theorem outlogIsNeverRead : Obligations.OutlogIsNeverRead := by
  refine fun s u h => ⟨fun t => step_agreeButOutlog h, fun f => step_fault_agreeButOutlog h, fun n => ?_⟩
  have hn := run_agreeButOutlog h n
  exact ⟨hn, statusOutputs_agreeButOutlog hn, result_agreeButOutlog hn⟩

end Sys2Proof.Proofs

/-! ## Status outputs and reset (R13, R39, R111, R250) -/

namespace Sys2Proof.Machine

theorem result_of_ne_halted {s : State} (h : s.runState ≠ .halted) : s.result = none := by
  unfold State.result
  cases hs : s.runState with
  | halted => exact absurd hs h
  | running => rfl
  | faulted => rfl

theorem fetchDecode_resetWith (image : List Word) (initInput : Word) :
    fetchDecode (State.resetWith image initInput) = decode (image.getD 0 Word.zero) := by
  rw [fetchDecode, resetWith_mem, Memory.read_ofImage]
  rfl

end Sys2Proof.Machine

namespace Sys2Proof.Proofs

open Sys2Proof.Machine Sys2Proof.Safety

/-- Settles O45: the codes and conditions one by one, and the reports by the run state. -/
theorem statusOutputsCodesAndResult : Obligations.StatusOutputsCodesAndResult := by
  refine ⟨⟨rfl, rfl, rfl⟩, ⟨rfl, rfl, rfl, rfl, rfl, rfl⟩, ⟨rfl, rfl⟩, fun s n w => ⟨rfl, rfl, rfl, rfl, rfl⟩, fun s => ?_⟩
  exact ⟨by rw [← paintCount_eq_card]; rfl, result_of_halted, result_of_ne_halted⟩

/-- Settles O50: reset sets each field to a constant or an input, whatever the state was. -/
theorem resetSetsEveryField : Obligations.ResetSetsEveryField := by
  refine fun s image initInput => ⟨Memory.read_ofImage image, rfl, rfl, rfl, rfl, rfl, rfl, rfl, rfl, rfl, rfl, rfl, rfl, rfl, ?_⟩
  rintro w rest rfl
  exact fetchDecode_resetWith _ _

/-- Settles O51: at reset the log and the paint map are empty, and the image is in canonical form by its length. -/
theorem resetMeetsTheInvariants : Obligations.ResetMeetsTheInvariants := by
  intro image initInput himage
  have hphase : PhaseMatchesOutputs (State.resetWith image initInput) := iff_of_true rfl rfl
  have hstart : (State.resetWith image initInput).agent.pos.x.val.natAbs +
      (State.resetWith image initInput).agent.pos.y.val.natAbs ≤ (State.resetWith image initInput).outlog.length / 2 := by
    simp [Agent.reset, Config.startX, Config.startY, Word.zero]
  have hnorth : Heading.code (State.resetWith image initInput).agent.heading % 2 =
      (State.resetWith image initInput).outlog.length / 2 % 2 := by simp [Agent.reset, Heading.code]
  refine ⟨⟨Memory.ofImage_wf himage, .nil⟩, ⟨by simp, fun _ => rfl⟩, hphase, ⟨hphase, .nil, Nat.zero_le _⟩, ⟨hphase, hstart⟩,
    ⟨hphase, hnorth⟩, fun _ h => absurd rfl h, rfl⟩

end Sys2Proof.Proofs
